-- ==== Sys2Proof/Word.lean ====
section
/-!
DEFINITION. The one kind of value of the machine: the 64-bit signed integer `int64` of
spec/00_scope.md rules R6 and R7. A word is held as its 64 two's-complement bits, and every rule reads
it through `BitVec.toInt`, so a value outside `INT_MIN .. INT_MAX` cannot be written down
(spec/10_state.md rule R37, item 1). The spec gives words no bit fields, and no bit operation is used.
-/

namespace Sys2Proof

/-- An `int64` (rule R7). Its value is `toInt`. -/
abbrev Word := BitVec 64

/-- `INT_MIN = -2^63` (rule R6). -/
def intMin : Int := -9223372036854775808

/-- `INT_MAX = 2^63 - 1` (rule R6). -/
def intMax : Int := 9223372036854775807

/-- The word whose value is `v`, for a `v` that fits `int64`. -/
def wordOf (v : Int) : Word := BitVec.ofInt 64 v

end Sys2Proof
end

