-- ==== Sys2Proof/Config.lean ====
section
/-!
DEFINITION. The parameters of the hardware (spec/00_scope.md rule R6) and the values the spec leaves
unspecified after reset (spec/93_implementation_defined.md section 2). Rule R6 closes the list of
parameters, so nothing else is configurable. No instruction has an undefined result
(93_implementation_defined.md section 1), so there is no free value here.
-/

namespace Sys2Proof.Config

/-- The number of words of the address space: addresses are `0 .. INT_MAX` (rules R6, R50). -/
def addressLimit : Nat := 9223372036854775808

/-- The number of words of the longest instruction (rule R80: one word and at most three parameters). -/
def longestInstr : Nat := 4

/-- What a memory word nobody has written reads as (rule R52). -/
abbrev unwrittenWord : Word := 0

/-- FAULT_PC and FAULT_INFO after reset. DESIGN CHOICE, unsafe, log entry 4: rule R34 leaves both
unspecified. -/
def resetLatchWord : Word := 0

/-- IR and OA[1..3] after reset. DESIGN CHOICE, unsafe, log entry 5: rule R34 leaves the scratch pad
unspecified. -/
def resetScratchWord : Word := 0

end Sys2Proof.Config
end

