-- ==== Sys2Proof/Syntax.lean ====
section
/-!
DEFINITION. The instruction set as syntax: the ten opcodes (spec/30_encoding.md rule R88), the three
addressing modes (rule R86), the five formats (rule R84) and the instructions.

An instruction here is what one instruction WORD says: its opcode and its three mode digits. The decoder
yields all three modes for every opcode (rule R87), the unused ones included (rule R94). The parameter
words are not part of it: they are memory words that the cycle reads one at a time while it moves PC
(spec/40_cycle_and_operands.md rule R114), so the machine reads them, not the decoder.
-/

namespace Sys2Proof

/-- The addressing mode of a parameter (rule R86). -/
inductive Mode
  /-- Mode digit 0: the parameter word is an address. -/
  | position
  /-- Mode digit 1: the parameter word is the value. -/
  | immediate
  /-- Mode digit 2: the parameter word is added to the relative base. -/
  | relative
deriving DecidableEq, Repr

/-- The ten opcodes (rule R88). -/
inductive Opcode
  | add | mul | inp | out | jt | jf | lt | eq | arb | hlt
deriving DecidableEq, Repr

/-- The five instruction formats (rule R84). -/
inductive Format
  /-- No parameter. -/
  | p0
  /-- One read operand. -/
  | p1r
  /-- One write target. -/
  | p1w
  /-- Two read operands. -/
  | p2r
  /-- Two read operands, then one write target. -/
  | p3w
deriving DecidableEq, Repr

/-- The number of a parameter; an instruction has at most three (rule R80). -/
inductive Param
  | one | two | three
deriving DecidableEq, Repr

/-- What a parameter is to its instruction (rule R11). -/
inductive ParamKind
  | read | write
deriving DecidableEq, Repr

/-- The ten instructions, one per row of spec/opcode_table.json, each with the modes of parameters 1, 2
and 3 in that order (rules R81, R87). -/
inductive Instr
  | add (m1 m2 m3 : Mode)
  | mul (m1 m2 m3 : Mode)
  | inp (m1 m2 m3 : Mode)
  | out (m1 m2 m3 : Mode)
  | jt (m1 m2 m3 : Mode)
  | jf (m1 m2 m3 : Mode)
  | lt (m1 m2 m3 : Mode)
  | eq (m1 m2 m3 : Mode)
  | arb (m1 m2 m3 : Mode)
  | hlt (m1 m2 m3 : Mode)
deriving DecidableEq, Repr

/-- The opcode of an instruction. -/
def Instr.opcode : Instr → Opcode
  | .add _ _ _ => .add
  | .mul _ _ _ => .mul
  | .inp _ _ _ => .inp
  | .out _ _ _ => .out
  | .jt _ _ _ => .jt
  | .jf _ _ _ => .jf
  | .lt _ _ _ => .lt
  | .eq _ _ _ => .eq
  | .arb _ _ _ => .arb
  | .hlt _ _ _ => .hlt

/-- The mode of parameter `k` of an instruction: `M[k]` (rule R87). -/
def Instr.mode (i : Instr) (k : Param) : Mode :=
  match i with
  | .add m1 m2 m3 | .mul m1 m2 m3 | .inp m1 m2 m3 | .out m1 m2 m3 | .jt m1 m2 m3 | .jf m1 m2 m3
  | .lt m1 m2 m3 | .eq m1 m2 m3 | .arb m1 m2 m3 | .hlt m1 m2 m3 =>
    match k with
    | .one => m1
    | .two => m2
    | .three => m3

/-- The instruction with a given opcode and modes. -/
def Opcode.instr (op : Opcode) (m1 m2 m3 : Mode) : Instr :=
  match op with
  | .add => .add m1 m2 m3
  | .mul => .mul m1 m2 m3
  | .inp => .inp m1 m2 m3
  | .out => .out m1 m2 m3
  | .jt => .jt m1 m2 m3
  | .jf => .jf m1 m2 m3
  | .lt => .lt m1 m2 m3
  | .eq => .eq m1 m2 m3
  | .arb => .arb m1 m2 m3
  | .hlt => .hlt m1 m2 m3

end Sys2Proof
end

