-- ==== Sys2Proof/WellFormed.lean ====
section
/-!
DEFINITION. What a well-formed instruction word is (spec/30_encoding.md rules R82 and R89), written from
the rules' own set of legal words and not from the decoder. A term of `Instr` cannot be ill-formed: its
opcode and its three modes are closed types, and rule R94 lets every legal mode digit stand in every place.
What can be ill-formed is a word, by one of four checks.
-/

namespace Sys2Proof.WellFormed

/-- Check 1 (rule R90): the word is not negative. -/
def nonNegative (w : Word) : Bool := decide (0 ≤ w.toInt)

/-- Check 2 (rules R88, R91): `w mod 100` is one of the ten opcodes. -/
def registeredOpcode (w : Word) : Bool :=
  decide ((w.toInt % 100) ∈ ([1, 2, 3, 4, 5, 6, 7, 8, 9, 99] : List Int))

/-- Check 3 (rules R82, R92): the mode field `w div 100` is at most 999. -/
def shortModeField (w : Word) : Bool := decide (w.toInt / 100 ≤ 999)

/-- Check 4 (rules R82, R92): the hundreds, thousands and ten-thousands digits are each 0, 1 or 2. -/
def legalModeDigits (w : Word) : Bool :=
  decide (w.toInt / 100 % 10 ≤ 2) && decide (w.toInt / 1000 % 10 ≤ 2) &&
    decide (w.toInt / 10000 % 10 ≤ 2)

/-- A legal instruction word (rule R89). -/
def legalWord (w : Word) : Bool :=
  nonNegative w && registeredOpcode w && shortModeField w && legalModeDigits w

end Sys2Proof.WellFormed
end

