-- ==== Sys2Proof/Decode.lean ====
section
/-!
DEFINITION. The decoder of spec/30_encoding.md rule R87, total on every word and rejecting by name, and
after it the encoder, written from rules R81, R82 and R88.
-/

namespace Sys2Proof

/-- Why a word is no instruction. -/
inductive DecodeError
  /-- The word is negative (rule R90) or its opcode is not registered (rule R91). -/
  | invalidOpcode
  /-- The opcode is registered and the mode field is illegal (rule R92). -/
  | invalidParameterMode
deriving DecidableEq, Repr

/-- The decimal digit of weight `10^k` (rule R8). -/
def digit (w k : Nat) : Nat := w / 10 ^ k % 10

/-- The opcode with a given number (rule R88); every other number selects none. -/
def Opcode.ofCode : Nat → Option Opcode
  | 1 => some .add
  | 2 => some .mul
  | 3 => some .inp
  | 4 => some .out
  | 5 => some .jt
  | 6 => some .jf
  | 7 => some .lt
  | 8 => some .eq
  | 9 => some .arb
  | 99 => some .hlt
  | _ => none

/-- The mode with a given digit (rule R86); 3 to 9 select none. -/
def Mode.ofDigit : Nat → Option Mode
  | 0 => some .position
  | 1 => some .immediate
  | 2 => some .relative
  | _ => none

/-- Decode one instruction word (rule R87). The opcode is checked before the mode field. -/
def decode (w : Word) : Except DecodeError Instr :=
  if w.toInt < 0 then .error .invalidOpcode
  else
    match Opcode.ofCode (w.toNat % 100) with
    | none => .error .invalidOpcode
    | some op =>
      if 999 < w.toNat / 100 then .error .invalidParameterMode
      else
        match Mode.ofDigit (digit w.toNat 2), Mode.ofDigit (digit w.toNat 3),
            Mode.ofDigit (digit w.toNat 4) with
        | some m1, some m2, some m3 => .ok (op.instr m1 m2 m3)
        | _, _, _ => .error .invalidParameterMode

/-- The format of an opcode (rule R84). -/
def Opcode.format : Opcode → Format
  | .add | .mul | .lt | .eq => .p3w
  | .inp => .p1w
  | .out | .arb => .p1r
  | .jt | .jf => .p2r
  | .hlt => .p0

/-- The number of parameters of a format (rules R84, R85). -/
def Format.params : Format → Nat
  | .p0 => 0
  | .p1r | .p1w => 1
  | .p2r => 2
  | .p3w => 3

/-- The kind of parameter `k` of a format (rule R84): the write targets are parameter 1 of `P1W` and
parameter 3 of `P3W`. -/
def Format.kind (f : Format) (k : Param) : ParamKind :=
  match f, k with
  | .p1w, .one => .write
  | .p3w, .three => .write
  | _, _ => .read

/-- The number of an opcode (rule R88). -/
def Opcode.code : Opcode → Nat
  | .add => 1
  | .mul => 2
  | .inp => 3
  | .out => 4
  | .jt => 5
  | .jf => 6
  | .lt => 7
  | .eq => 8
  | .arb => 9
  | .hlt => 99

/-- The mode digit of a mode (rule R86). -/
def Mode.digit : Mode → Nat
  | .position => 0
  | .immediate => 1
  | .relative => 2

/-- The number `CBADE` of an instruction word (rule R81): parameter 1's mode stands in the hundreds. -/
def instrNumber (op : Opcode) (m1 m2 m3 : Mode) : Nat :=
  op.code + 100 * m1.digit + 1000 * m2.digit + 10000 * m3.digit

/-- The instruction word of an instruction. -/
def encode (i : Instr) : Word :=
  BitVec.ofNat 64 (instrNumber i.opcode (i.mode .one) (i.mode .two) (i.mode .three))

/-- The memory words of an instruction with its parameter words, lowest address first (rules R80, R84). -/
def assemble (i : Instr) (params : List Word) : List Word := encode i :: params

/-- The `k`-th 64-bit word of a number read as consecutive memory words, word 0 the least significant. -/
def tableWord (w k : Nat) : Word := BitVec.ofNat 64 (w / 2 ^ (64 * k))

/-- The words of an instruction that is given as a number (bit 0 the least significant bit of the first
word), as far as the longest instruction reaches. `nbits` bounds the number, so the bits above it are 0
already. -/
def tableWords (_nbits w : Nat) : List Word := (List.range Config.longestInstr).map (tableWord w)

/-- The instruction the decoder reads from an instruction given as a number. Parameter words do not take
part in decoding (rule R87), so the first word alone decides. -/
def decodeTableWord (nbits w : Nat) : Option Instr :=
  match tableWords nbits w with
  | [] => none
  | first :: _ =>
    match decode first with
    | .ok i => some i
    | .error _ => none

end Sys2Proof
end

