-- ==== Sys2Proof/Machine/State.lean ====
section
/-!
DEFINITION. The state of one engine instance (spec/10_state.md rule R20), the reasons a step can stop, and
the state right after reset (rule R34). All of it is plain data.
-/

namespace Sys2Proof.Machine

/-- Who stops a step without a next state. A fault of the spec's own (rule R240) does NOT end here: it is
latched in the state and the step answers next. -/
inductive Fault
  /-- `InvalidState` (rules R111, R208, R233): the engine is waiting, halted or faulted, so no cycle
  starts and nothing changes. Raised by `step` alone. Safe: the spec rejects the command. -/
  | invalidState
deriving DecidableEq, Repr

/-- An instruction the model gives no meaning. -/
inductive Refusal
  /-- Raised by an arm of `exec` that has no meaning yet; no arm is left so. Safe: the model stops. -/
  | notModelled (mnemonic : String)
deriving DecidableEq, Repr

/-- RUN_STATE (rule R28). -/
inductive RunState
  | running | waitingForInput | halted
deriving DecidableEq, Repr

/-- The five error causes (rule R230). -/
inductive Cause
  | invalidOpcode | invalidParameterMode | invalidState | invalidAddress | arithmeticOverflow
deriving DecidableEq, Repr

/-- The computation that overflowed (rule R235): kinds 1 to 5. -/
inductive OverflowKind
  | add | mul | arb | address | pc
deriving DecidableEq, Repr

/-- One memory word with its address. Memory has no bytes (spec/20_memory.md rule R58), so a cell of the
model is a whole word. -/
abbrev Cell := Nat × Word

/-- Memory: the words that are not 0, in rising order of address (rules R50, R56). -/
abbrev Memory := List Cell

/-- The canonical form of memory: addresses strictly rise and lie in the address space, and no listed word
equals what an unlisted address reads as. -/
abbrev Memory.wf (m : Memory) : Prop :=
  m.Pairwise (fun x y => x.1 < y.1) ∧
    ∀ x ∈ m, x.2 ≠ Config.unwrittenWord ∧ x.1 < Config.addressLimit

/-- The scratch pad (rule R26), rebuilt in every cycle and never read in a later one. -/
structure Scratch where
  /-- IR, the instruction word. -/
  ir : Word
  /-- OPC, the opcode. -/
  opc : Opcode
  /-- M[1], M[2], M[3], the mode digits. -/
  m1 : Mode
  m2 : Mode
  m3 : Mode
  /-- OA[1], OA[2], OA[3], the resolved operand addresses. -/
  oa1 : Word
  oa2 : Word
  oa3 : Word
deriving DecidableEq, Repr

/-- The state of one instance (rule R20). -/
structure State where
  /-- Mem (rule R50). -/
  mem : Memory
  /-- PC (rule R22). -/
  pc : Word
  /-- RB, the relative base (rule R25). -/
  rb : Word
  /-- INQ, oldest entry first (rule R30). -/
  inq : List Word
  /-- OUTQ, oldest entry first (rule R32). -/
  outq : List Word
  /-- RUN_STATE (rule R28). -/
  runState : RunState
  /-- PROGRAM, the stored template (rule R31). -/
  program : List Word
  /-- FAULT_VALID (rule R29). -/
  faultValid : Bool
  /-- FAULT_CAUSE, meaningful only while FAULT_VALID holds. -/
  faultCause : Cause
  /-- FAULT_PC, meaningful only while FAULT_VALID holds. -/
  faultPc : Word
  /-- FAULT_INFO, meaningful only while FAULT_VALID holds. -/
  faultInfo : Word
  /-- IR, OPC, M[1..3], OA[1..3] (rule R26). -/
  scratch : Scratch
deriving DecidableEq, Repr

/-- A fault raised inside a cycle, with the state at the point of the `raise` (rules R9, R240). -/
structure Raised where
  cause : Cause
  info : Word
  state : State
deriving DecidableEq, Repr

/-- The scratch pad after reset. DESIGN CHOICE, unsafe, log entry 5: rule R34 leaves it unspecified. -/
def Scratch.reset : Scratch :=
  { ir := Config.resetScratchWord
    opc := .add
    m1 := .position
    m2 := .position
    m3 := .position
    oa1 := Config.resetScratchWord
    oa2 := Config.resetScratchWord
    oa3 := Config.resetScratchWord }

/-- The state right after reset of an instance that holds the empty Program (rules R34, R202). FAULT_CAUSE,
FAULT_PC and FAULT_INFO are DESIGN CHOICES, unsafe, log entry 4. -/
def State.reset : State :=
  { mem := []
    pc := 0
    rb := 0
    inq := []
    outq := []
    runState := .running
    program := []
    faultValid := false
    faultCause := .invalidOpcode
    faultPc := Config.resetLatchWord
    faultInfo := Config.resetLatchWord
    scratch := Scratch.reset }

end Sys2Proof.Machine
end

