-- ==== Sys2Proof/Machine/Flags.lean ====
section
/-!
DEFINITION. The conditions the 64-bit signed ALU computes. The hardware has no flags (spec/10_state.md rule
R27): an overflow is a fault, a comparison writes 0 or 1 to memory, and a jump tests a memory word.
-/

namespace Sys2Proof.Machine

/-- The number of an overflow kind (rule R235). -/
def OverflowKind.code : OverflowKind → Nat
  | .add => 1
  | .mul => 2
  | .arb => 3
  | .address => 4
  | .pc => 5

/-- The number of a cause (rule R230). -/
def Cause.code : Cause → Nat
  | .invalidOpcode => 1
  | .invalidParameterMode => 2
  | .invalidState => 3
  | .invalidAddress => 4
  | .arithmeticOverflow => 5

/-- The number of a run state (rule R28). -/
def RunState.code : RunState → Nat
  | .running => 0
  | .waitingForInput => 1
  | .halted => 2

/-- An exact result lies in `INT_MIN .. INT_MAX` (rule R7). -/
abbrev fits (v : Int) : Prop := intMin ≤ v ∧ v ≤ intMax

/-- `fit64` (rule R7): the word of an exact result that fits, and nothing otherwise. Never wraps,
saturates or truncates (spec/41_arithmetic.md rule R143). -/
def fit64 (v : Int) : Option Word := if fits v then some (wordOf v) else none

/-- The exact sum of two words (rule R143). -/
abbrev exactSum (x y : Word) : Int := x.toInt + y.toInt

/-- The exact product of two words (rules R142, R143). -/
abbrev exactProduct (x y : Word) : Int := x.toInt * y.toInt

/-- The word LT writes: 1 for strictly less as signed integers, else 0 (spec/44_compare.md rule R171). -/
def lessThanWord (x y : Word) : Word := if x.toInt < y.toInt then 1 else 0

/-- The word EQ writes: 1 for equal values, else 0 (rule R172). -/
def equalWord (x y : Word) : Word := if x.toInt = y.toInt then 1 else 0

/-- What JT and JF test: a word is true when it is not 0 (spec/43_jumps.md rule R161). -/
abbrev nonZero (x : Word) : Prop := x.toInt ≠ 0

end Sys2Proof.Machine
end

