-- ==== Sys2Proof/Machine/Ops.lean ====
section
/-!
DEFINITION. The named operations over memory and the registers, raising and taking a fault
(spec/60_exceptions.md rule R240), and reset (spec/47_host_commands.md rule R204). A cycle's steps answer
`Except Raised`: `.error` is the `raise` of spec/00_scope.md rule R9.
-/

namespace Sys2Proof.Machine

/-! ### Memory -/

/-- The word at an address; an unlisted address reads 0 (spec/20_memory.md rules R50, R52). -/
def Memory.read : Memory → Nat → Word
  | [], _ => Config.unwrittenWord
  | (k, v) :: m, a => if k = a then v else Memory.read m a

/-- Memory without any entry for an address. -/
def Memory.erase (m : Memory) (a : Nat) : Memory := m.filter (fun x => x.1 ≠ a)

/-- Put an entry before the first one with a higher address. -/
def Memory.insert : Memory → Nat → Word → Memory
  | [], a, v => [(a, v)]
  | (k, w) :: m, a, v => if a < k then (a, v) :: (k, w) :: m else (k, w) :: Memory.insert m a v

/-- Write a word (rule R54), keeping the canonical form: the word an unlisted address reads as is not
listed. -/
def Memory.write (m : Memory) (a : Nat) (v : Word) : Memory :=
  if v = Config.unwrittenWord then m.erase a else (m.erase a).insert a v

/-- Memory seeded with words from address `a` upward, as far as the address space reaches (rule R51). -/
def Memory.seedFrom (a : Nat) : List Word → Memory
  | [] => []
  | v :: vs =>
    if v = Config.unwrittenWord ∨ Config.addressLimit ≤ a then Memory.seedFrom (a + 1) vs
    else (a, v) :: Memory.seedFrom (a + 1) vs

/-- Memory seeded from a Program: word `i` at address `i`, 0 elsewhere (rules R51, R52, R57). -/
def Memory.seed (program : List Word) : Memory := Memory.seedFrom 0 program

/-- Write words at consecutive addresses, leaving out what lies beyond the address space. -/
def Memory.writeWords (m : Memory) (a : Nat) : List Word → Memory
  | [] => m
  | v :: vs => Memory.writeWords (if a < Config.addressLimit then m.write a v else m) (a + 1) vs

/-! ### Registers -/

/-- `PC <- v`. -/
def State.setPc (s : State) (v : Word) : State := { s with pc := v }

/-- `RB <- v`. -/
def State.setRb (s : State) (v : Word) : State := { s with rb := v }

/-- Replace memory. -/
def State.setMem (s : State) (m : Memory) : State := { s with mem := m }

/-- Replace the input queue. -/
def State.setInq (s : State) (q : List Word) : State := { s with inq := q }

/-- Replace the output queue. -/
def State.setOutq (s : State) (q : List Word) : State := { s with outq := q }

/-- `RUN_STATE <- r`. -/
def State.setRunState (s : State) (r : RunState) : State := { s with runState := r }

/-- What a successful decode writes to the scratch pad: IR, OPC and M[1..3] (spec/30_encoding.md rule
R87). -/
def State.latchDecode (s : State) (op : Opcode) (m1 m2 m3 : Mode) : State :=
  { s with
    scratch := { s.scratch with
      ir := encode (op.instr m1 m2 m3), opc := op, m1 := m1, m2 := m2, m3 := m3 } }

/-- `OA[k] <- ea`. -/
def State.setOa (s : State) (k : Param) (ea : Word) : State :=
  match k with
  | .one => { s with scratch := { s.scratch with oa1 := ea } }
  | .two => { s with scratch := { s.scratch with oa2 := ea } }
  | .three => { s with scratch := { s.scratch with oa3 := ea } }

/-- `M[k]`. -/
def Scratch.mode (c : Scratch) (k : Param) : Mode :=
  match k with
  | .one => c.m1
  | .two => c.m2
  | .three => c.m3

/-- `OA[k]`. -/
def Scratch.oa (c : Scratch) (k : Param) : Word :=
  match k with
  | .one => c.oa1
  | .two => c.oa2
  | .three => c.oa3

/-! ### Raising and taking a fault -/

/-- `raise InvalidAddress(ea)` (rule R234). -/
def State.raiseAddress (s : State) (ea : Word) : Raised := ⟨.invalidAddress, ea, s⟩

/-- `raise ArithmeticOverflow(kind)` (rule R235). -/
def State.raiseOverflow (s : State) (k : OverflowKind) : Raised :=
  ⟨.arithmeticOverflow, BitVec.ofNat 64 k.code, s⟩

/-- `raise` of a decode failure, with the instruction word as its information (rules R231, R232). -/
def State.raiseDecode (s : State) (w : Word) : DecodeError → Raised
  | .invalidOpcode => ⟨.invalidOpcode, w, s⟩
  | .invalidParameterMode => ⟨.invalidParameterMode, w, s⟩

/-- Fault entry (rule R240): the latch is set from the fault and from PC0, the address of the cycle's
instruction word; the rest is the state at the point of the raise. -/
def takeFault (pc0 : Word) (r : Raised) : State :=
  { r.state with faultValid := true, faultCause := r.cause, faultPc := pc0, faultInfo := r.info }

/-- The end of a cycle begun at PC0: the state its steps leave, or fault entry where one of them raised.
Either way the machine has a next state. -/
def endCycle (pc0 : Word) : Except Raised State → Host.Outcome State Fault Refusal
  | .ok s => .next s
  | .error r => .next (takeFault pc0 r)

/-! ### The primitives of a cycle -/

/-- `MemRead(addr, 1)` (rule R53). -/
def State.memRead (s : State) (a : Word) : Except Raised Word :=
  if a.toInt < 0 then .error (s.raiseAddress a) else .ok (s.mem.read a.toNat)

/-- `MemWrite(addr, 1, v)` (rule R54). -/
def State.memWrite (s : State) (a v : Word) : Except Raised State :=
  if a.toInt < 0 then .error (s.raiseAddress a) else .ok (s.setMem (s.mem.write a.toNat v))

/-- `fit64(v)`, raising an overflow of a given kind (rules R7, R235). -/
def State.fitOrRaise (s : State) (k : OverflowKind) (v : Int) : Except Raised Word :=
  match fit64 v with
  | some w => .ok w
  | none => .error (s.raiseOverflow k)

/-- `PC <- fit64(PC + 1)`, overflow kind 5 (spec/40_cycle_and_operands.md rule R132). -/
def State.advancePc (s : State) : Except Raised State := do
  let v ← s.fitOrRaise .pc (s.pc.toInt + 1)
  .ok (s.setPc v)

/-- Fetch and decode (rules R112, R113): neither moves PC when it raises. -/
def State.fetchDecode (s : State) : Except Raised Instr := do
  let w ← s.memRead s.pc
  match decode w with
  | .ok i => .ok i
  | .error e => .error (s.raiseDecode w e)

/-! ### Leaving a fault: reset -/

/-- The effect of `reset` (rules R204, R270): everything but PROGRAM takes its reset value, and memory is
seeded from PROGRAM again. This is the only way out of the faulted condition (rule R244). -/
def State.restart (s : State) : State :=
  { State.reset with mem := Memory.seed s.program, program := s.program }

/-- The instance `new(program)` makes (rule R202). -/
def State.new (program : List Word) : State := State.restart { State.reset with program := program }

/-- A cycle may start (rule R111). -/
abbrev State.runnable (s : State) : Prop := s.runState = .running ∧ s.faultValid = false

end Sys2Proof.Machine
end

