-- ==== Sys2Proof/Machine/Operands.lean ====
section
/-!
DEFINITION. Operand resolution: the three addressing modes for read operands and write targets, and the
part of a cycle every instruction shares (spec/40_cycle_and_operands.md rules R113, R114, R120 to R127).
-/

namespace Sys2Proof.Machine

/-- The exact address a parameter resolves to, from its parameter word `p`, the address `pc` of that word
and the relative base `rb` (rules R120 to R124). A write target in mode 1 is as in mode 0 (rule R123). -/
def exactAddress (kind : ParamKind) (m : Mode) (p pc rb : Int) : Int :=
  match m, kind with
  | .position, _ => p
  | .immediate, .read => pc
  | .immediate, .write => p
  | .relative, _ => p + rb

/-- The resolved address as a word. Only the relative sum can fail to fit, with overflow kind 4 (rules R122,
R124); in the other modes the exact address is a word already. -/
def State.resolveAddress (s : State) (kind : ParamKind) (m : Mode) (p : Word) : Except Raised Word :=
  s.fitOrRaise .address (exactAddress kind m p.toInt s.pc.toInt s.rb.toInt)

/-- The address check (rule R126), made for every parameter, used or not. -/
def State.checkAddress (s : State) (ea : Word) : Except Raised Word :=
  if ea.toInt < 0 then .error (s.raiseAddress ea) else .ok ea

/-- Resolve parameter `k` (rule R114): read its word at PC, compute and check its address, write OA[k],
and move PC past the word (rule R127). -/
def State.resolveParam (s : State) (k : Param) (kind : ParamKind) : Except Raised State := do
  let p ← s.memRead s.pc
  let ea ← s.resolveAddress kind (s.scratch.mode k) p
  let ea ← s.checkAddress ea
  (s.setOa k ea).advancePc

/-- Resolve every parameter of a format, in order 1, 2, 3 (rules R84, R114). -/
def State.resolveAll (s : State) (f : Format) : Except Raised State :=
  match f with
  | .p0 => .ok s
  | .p1r => s.resolveParam .one .read
  | .p1w => s.resolveParam .one .write
  | .p2r => do
    let s ← s.resolveParam .one .read
    s.resolveParam .two .read
  | .p3w => do
    let s ← s.resolveParam .one .read
    let s ← s.resolveParam .two .read
    s.resolveParam .three .write

/-- The common steps of a cycle up to the execute step (rules R110, R113, R114): the scratch pad takes the
decoded instruction, PC moves past the instruction word, and the parameters are resolved. -/
def State.prepare (s : State) (op : Opcode) (m1 m2 m3 : Mode) : Except Raised State := do
  let s ← (s.latchDecode op m1 m2 m3).advancePc
  s.resolveAll op.format

/-- The word at `OA[k]`: the value of a read operand in the execute step (rule R128). -/
def State.operandAt (s : State) (k : Param) : Except Raised Word := s.memRead (s.scratch.oa k)

/-- Write a result to `OA[k]`, the address of a write target. The old word there is not read (rule R125). -/
def State.storeAt (s : State) (k : Param) (v : Word) : Except Raised State :=
  s.memWrite (s.scratch.oa k) v

/-- The execute step of ADD, MUL, LT and EQ: both operand words, then a result from them, then the one
write (rules R129, R140, R170). -/
def State.binary (s : State) (f : State → Word → Word → Except Raised Word) : Except Raised State := do
  let x ← s.operandAt .one
  let y ← s.operandAt .two
  let v ← f s x y
  s.storeAt .three v

/-- The execute step of JT and JF: the condition word, then the target word into PC when the condition
holds of it (rules R160, R163). The target is not checked. -/
def State.jumpWhen (s : State) (taken : Word → Bool) : Except Raised State := do
  let x ← s.operandAt .one
  if taken x then do
    let t ← s.operandAt .two
    .ok (s.setPc t)
  else .ok s

/-- One cycle of an instruction that has been fetched and decoded: the common steps, then its execute
step; a raise in either is fault entry with PC0, the address of the instruction word (rules R110, R133,
R240). -/
def runCycle (op : Opcode) (m1 m2 m3 : Mode) (execute : State → Except Raised State) (s : State) :
    Host.Outcome State Fault Refusal :=
  endCycle s.pc (do
    let t ← s.prepare op m1 m2 m3
    execute t)

end Sys2Proof.Machine
end

