-- ==== Sys2Proof/Machine/Arithmetic.lean ====
section
/-!
DEFINITION. ADD and MUL (spec/41_arithmetic.md).
-/

namespace Sys2Proof.Machine

/-- ADD (rule R141): `Mem[c] <- fit64(Mem[a] + Mem[b])`, overflow kind 1. -/
def execAdd (m1 m2 m3 : Mode) (s : State) : Host.Outcome State Fault Refusal :=
  runCycle .add m1 m2 m3 (fun t => t.binary (fun u x y => u.fitOrRaise .add (exactSum x y))) s

/-- MUL (rule R142): `Mem[c] <- fit64(Mem[a] * Mem[b])`, overflow kind 2. -/
def execMul (m1 m2 m3 : Mode) (s : State) : Host.Outcome State Fault Refusal :=
  runCycle .mul m1 m2 m3 (fun t => t.binary (fun u x y => u.fitOrRaise .mul (exactProduct x y))) s

end Sys2Proof.Machine
end

