-- ==== Sys2Proof/Machine/Compare.lean ====
section
/-!
DEFINITION. LT and EQ (spec/44_compare.md). Neither forms a difference, so neither can overflow (rule R173).
-/

namespace Sys2Proof.Machine

/-- LT (rule R171): `Mem[c] <- (Mem[a] < Mem[b]) ? 1 : 0`. -/
def execLt (m1 m2 m3 : Mode) (s : State) : Host.Outcome State Fault Refusal :=
  runCycle .lt m1 m2 m3 (fun t => t.binary (fun _ x y => .ok (lessThanWord x y))) s

/-- EQ (rule R172): `Mem[c] <- (Mem[a] = Mem[b]) ? 1 : 0`. -/
def execEq (m1 m2 m3 : Mode) (s : State) : Host.Outcome State Fault Refusal :=
  runCycle .eq m1 m2 m3 (fun t => t.binary (fun _ x y => .ok (equalWord x y))) s

end Sys2Proof.Machine
end

