-- ==== Sys2Proof/Machine/InputOutput.lean ====
section
/-!
DEFINITION. IN and OUT (spec/42_input_output.md).
-/

namespace Sys2Proof.Machine

/-- The execute step of IN (rule R151): an empty queue puts PC back on the IN and parks the engine, with
no other change; otherwise the oldest entry leaves the queue and is stored. The target was checked
before. -/
def takeInput (t : State) : Except Raised State :=
  match t.inq with
  | [] => .ok ((t.setPc (t.pc - 2)).setRunState .waitingForInput)
  | v :: rest => (t.setInq rest).storeAt .one v

/-- IN (rule R151). -/
def execInp (m1 m2 m3 : Mode) (s : State) : Host.Outcome State Fault Refusal :=
  runCycle .inp m1 m2 m3 takeInput s

/-- The execute step of OUT (rule R152): the operand becomes the newest entry of the output queue. -/
def giveOutput (t : State) : Except Raised State := do
  let v ← t.operandAt .one
  .ok (t.setOutq (t.outq ++ [v]))

/-- OUT (rule R152). -/
def execOut (m1 m2 m3 : Mode) (s : State) : Host.Outcome State Fault Refusal :=
  runCycle .out m1 m2 m3 giveOutput s

end Sys2Proof.Machine
end

