-- ==== Sys2Proof/Machine/Jumps.lean ====
section
/-!
DEFINITION. JT and JF (spec/43_jumps.md).
-/

namespace Sys2Proof.Machine

/-- JT (rule R161): `if Mem[a] != 0: PC <- Mem[b]`. -/
def execJt (m1 m2 m3 : Mode) (s : State) : Host.Outcome State Fault Refusal :=
  runCycle .jt m1 m2 m3 (fun t => t.jumpWhen (fun x => decide (nonZero x))) s

/-- JF (rule R162): `if Mem[a] = 0: PC <- Mem[b]`. -/
def execJf (m1 m2 m3 : Mode) (s : State) : Host.Outcome State Fault Refusal :=
  runCycle .jf m1 m2 m3 (fun t => t.jumpWhen (fun x => decide (¬ nonZero x))) s

end Sys2Proof.Machine
end

