-- ==== Sys2Proof/Machine/System.lean ====
section
/-!
DEFINITION. ARB (spec/45_relative_base.md) and HLT (spec/46_halt.md).
-/

namespace Sys2Proof.Machine

/-- The execute step of ARB (rule R181): `RB <- fit64(RB + Mem[a])`, overflow kind 3. -/
def adjustBase (t : State) : Except Raised State := do
  let x ← t.operandAt .one
  let v ← t.fitOrRaise .arb (exactSum t.rb x)
  .ok (t.setRb v)

/-- ARB (rule R181). Its operand is resolved with the old RB. -/
def execArb (m1 m2 m3 : Mode) (s : State) : Host.Outcome State Fault Refusal :=
  runCycle .arb m1 m2 m3 adjustBase s

/-- HLT (rule R191): `RUN_STATE <- Halted`. -/
def execHlt (m1 m2 m3 : Mode) (s : State) : Host.Outcome State Fault Refusal :=
  runCycle .hlt m1 m2 m3 (fun t => .ok (t.setRunState .halted)) s

end Sys2Proof.Machine
end

