-- ==== Sys2Proof/Machine/Step.lean ====
section
/-!
DEFINITION. One step of the engine: one cycle (spec/40_cycle_and_operands.md rules R110, R111, R131).
-/

namespace Sys2Proof.Machine

/-- One step is one cycle. A cycle starts only while the engine is running and no fault is latched (rule
R111); otherwise the step is rejected and nothing changes (rules R201, R233). A fault of the cycle is
latched and answered as a next state (rule R240). -/
def step (s : State) : Host.Outcome State Fault Refusal :=
  if s.runnable then
    match s.fetchDecode with
    | .ok i => exec i s
    | .error r => endCycle s.pc (.error r)
  else .fault .invalidState

/-- The state with an instruction's words placed where the next cycle fetches, and able to run a cycle:
the words go to the addresses from PC upward (from address 0 where PC is negative), the engine is
running and no fault is latched. It stands for a host that loads a program (log entry 6). -/
def State.withFetchWord (s : State) (nbits w : Nat) : State :=
  let pc : Word := if s.pc.toInt < 0 then 0 else s.pc
  { s with
    mem := s.mem.writeWords pc.toNat (tableWords nbits w)
    pc := pc
    runState := .running
    faultValid := false }

end Sys2Proof.Machine
end

