-- ==== Sys2Proof/Machine/HostCommands.lean ====
section
/-!
DEFINITION. The host's commands on one instance (spec/47_host_commands.md). They are not instructions: no
program can issue one. Each acts between two cycles (rule R200).

`run` and `resume` need not return (spec/60_exceptions.md rule R252). They are written with a count of
cycles to look at, and a call RETURNS a response when SOME count is enough; no count bounds the machine.
-/

namespace Sys2Proof.Machine

/-- The commands of rules R203 to R213. `new` makes an instance and is `State.new`. -/
inductive Command
  | load (program : List Word)
  | reset
  | pushInput (v : Word)
  | run
  | resume
  | cycle
  | drainOutput
  | peek (a : Word)
  | halted
  | outCount
  | inCount
  | runState
  | readPc
  | readRb
  | readFault
deriving DecidableEq, Repr

/-- The errors a rejected command carries (rule R201). -/
inductive Rejection
  | invalidState
  | invalidAddress
deriving DecidableEq, Repr

/-- What a command returns to the host. -/
inductive Response
  /-- A command without a response (rules R203 to R205). -/
  | done
  /-- `Stopped(state)` (rule R211). -/
  | stopped (r : RunState)
  /-- `Faulted(cause, info)` (rule R211). -/
  | faulted (c : Cause) (info : Word)
  /-- `Rejected(error)` (rule R201). -/
  | rejected (e : Rejection)
  /-- The drained output, oldest first (rule R209). -/
  | output (vs : List Word)
  /-- A word (rules R210, R213). -/
  | word (v : Word)
  /-- A truth value (rule R212). -/
  | flag (b : Bool)
  /-- A count (rules R212, R213). -/
  | count (n : Nat)
  /-- The run state (rule R213). -/
  | state (r : RunState)
  /-- The fault latch: cause, FAULT_PC and FAULT_INFO while FAULT_VALID is 1 (rule R213). -/
  | latch (f : Option (Cause × Word × Word))
deriving DecidableEq, Repr

/-- The response of a cycle-starting command after a performed cycle (rule R211). -/
def State.report (s : State) : Response :=
  if s.faultValid then .faulted s.faultCause s.faultInfo else .stopped s.runState

/-- `cycle` (rule R208): one cycle, or a rejection that changes nothing. There is no answer only where the
model refuses an instruction, which it never does. -/
def State.cycleCommand (s : State) : Option (Response × State) :=
  match step s with
  | .next t => some (t.report, t)
  | .fault .invalidState => some (.rejected .invalidState, s)
  | .refused _ => none

/-- `run` watched for at most `n` cycles (rule R206): cycles are performed until one ends in anything but
`Stopped(Running)`. No answer means that the call has not returned by then. -/
def State.runWithin : Nat → State → Option (Response × State)
  | 0, _ => none
  | n + 1, s =>
    match s.cycleCommand with
    | some (.stopped .running, t) => State.runWithin n t
    | r => r

/-- `resume` watched for at most `n` cycles (rule R207). -/
def State.resumeWithin (n : Nat) (s : State) : Option (Response × State) :=
  if s.runState = .waitingForInput ∧ s.faultValid = false then
    State.runWithin n (s.setRunState .running)
  else some (.rejected .invalidState, s)

/-- `load(program)` (rule R203): replace PROGRAM, then reset. -/
def State.loadProgram (s : State) (program : List Word) : State :=
  State.restart { s with program := program }

/-- `peek(addr)` (rule R210): a negative address is rejected and nothing is latched. -/
def State.peek (s : State) (a : Word) : Response :=
  if a.toInt < 0 then .rejected .invalidAddress else .word (s.mem.read a.toNat)

/-- `read_fault()` (rule R213). -/
def State.readFault (s : State) : Response :=
  .latch (if s.faultValid then some (s.faultCause, s.faultPc, s.faultInfo) else none)

/-- One host command, watched for at most `n` cycles: its response and the state after it. Only `run` and
`resume` depend on `n` (rules R200 to R214). -/
def State.command (n : Nat) (c : Command) (s : State) : Option (Response × State) :=
  match c with
  | .load program => some (.done, s.loadProgram program)
  | .reset => some (.done, s.restart)
  | .pushInput v => some (.done, s.setInq (s.inq ++ [v]))
  | .run => s.runWithin n
  | .resume => s.resumeWithin n
  | .cycle => s.cycleCommand
  | .drainOutput => some (.output s.outq, s.setOutq [])
  | .peek a => some (s.peek a, s)
  | .halted => some (.flag (s.runState = .halted), s)
  | .outCount => some (.count s.outq.length, s)
  | .inCount => some (.count s.inq.length, s)
  | .runState => some (.state s.runState, s)
  | .readPc => some (.word s.pc, s)
  | .readRb => some (.word s.rb, s)
  | .readFault => some (s.readFault, s)

/-- Command `c` on `s` returns `r` and leaves `t`. -/
def Returns (c : Command) (s : State) (r : Response) (t : State) : Prop :=
  ∃ n, s.command n c = some (r, t)

/-- A call that never comes back (rule R252). -/
def Hangs (c : Command) (s : State) : Prop := ∀ n, s.command n c = none

end Sys2Proof.Machine
end

