-- ==== Sys2Proof/Machine/Instances.lean ====
section
/-!
DEFINITION. Several instances under one host (spec/60_exceptions.md rules R248, R249). An instance is known
to the host by its place in a list; instances share nothing (spec/10_state.md rule R36).
-/

namespace Sys2Proof.Machine

/-- The instances a host has made, oldest first. -/
abbrev Instances := List State

/-- `new(program)` makes one more instance (rule R202). -/
def Instances.new (b : Instances) (program : List Word) : Instances := b ++ [State.new program]

/-- A command on instance `k` (rules R36, R200): the response, and the instances after it. -/
def Instances.command (b : Instances) (n k : Nat) (c : Command) : Option (Response × Instances) :=
  match b[k]? with
  | none => none
  | some s =>
    match s.command n c with
    | none => none
    | some (r, t) => some (r, b.set k t)

/-- The host's transfer of rule R249: drain instance `src` and push every value, in order, to `dst`. -/
def Instances.transfer (b : Instances) (src dst : Nat) : Instances :=
  match b[src]? with
  | none => b
  | some s =>
    let drained := b.set src (s.setOutq [])
    match drained[dst]? with
    | none => b
    | some t => drained.set dst (t.setInq (t.inq ++ s.outq))

end Sys2Proof.Machine
end

