-- ==== Sys2Proof/Safety.lean ====
section
/-!
DEFINITION. The terms claims use: what the instruction at PC resolves to, what a latched fault leaves, which
registers can be seen, and the invariant of the machine (spec/10_state.md rule R37).
-/

namespace Sys2Proof

/-! ### Syntax -/

/-- How far parameter `k` lies after the instruction word (spec/00_scope.md rule R11). -/
def Param.offset : Param → Nat
  | .one => 1
  | .two => 2
  | .three => 3

/-- The first `n` parameters, in order. -/
def Param.first : Nat → List Param
  | 0 => []
  | 1 => [.one]
  | 2 => [.one, .two]
  | _ => [.one, .two, .three]

/-- The kind of parameter `k` of an instruction (spec/30_encoding.md rule R84). -/
def Instr.kind (i : Instr) (k : Param) : ParamKind := i.opcode.format.kind k

/-- The number of parameters of an instruction (rule R85). -/
def Instr.paramCount (i : Instr) : Nat := i.opcode.format.params

/-- The 27 legal mode fields, as rule R82 lists them. -/
def legalModeFields : List Int :=
  [0, 1, 2, 10, 11, 12, 20, 21, 22, 100, 101, 102, 110, 111] ++
    [112, 120, 121, 122, 200, 201, 202, 210, 211, 212, 220, 221, 222]

/-- The ten opcode numbers, as rule R88 lists them. -/
def opcodeNumbers : List Int := [1, 2, 3, 4, 5, 6, 7, 8, 9, 99]

/-- The set of rule R89. -/
def legalInstructionWords : List Int :=
  legalModeFields.flatMap (fun mf => opcodeNumbers.map (fun op => 100 * mf + op))

end Sys2Proof

namespace Sys2Proof.Machine

/-! ### The parameters of the instruction at PC -/

/-- The parameter word `k` of the instruction at PC. -/
def State.paramWord (s : State) (k : Param) : Word := s.mem.read (s.pc.toInt + k.offset).toNat

/-- The exact address parameter `k` of the instruction at PC resolves to
(spec/40_cycle_and_operands.md rules R120 to R124). -/
def State.paramAddress (s : State) (kind : ParamKind) (m : Mode) (k : Param) : Int :=
  exactAddress kind m (s.paramWord k).toInt (s.pc.toInt + k.offset) s.rb.toInt

/-- The value of read operand `k` of the instruction at PC. -/
def State.operandWord (s : State) (m : Mode) (k : Param) : Word :=
  s.mem.read (s.paramAddress .read m k).toNat

/-- Parameter `k` resolves to an address of memory, so its resolution raises nothing (rule R126). -/
abbrev State.resolves (s : State) (i : Instr) (k : Param) : Prop :=
  0 ≤ s.paramAddress (i.kind k) (i.mode k) k ∧ s.paramAddress (i.kind k) (i.mode k) k ≤ intMax

/-- PC is an address and can be moved on by `n` words (rule R132). -/
abbrev State.roomFor (s : State) (n : Nat) : Prop := 0 ≤ s.pc.toInt ∧ s.pc.toInt + n ≤ intMax

/-- The common steps of a cycle of `i` raise nothing (rule R238, items 6 and 7 do not arise). -/
abbrev State.ready (s : State) (i : Instr) : Prop :=
  s.roomFor (i.paramCount + 1) ∧ ∀ k ∈ Param.first i.paramCount, s.resolves i k

/-! ### Latched faults -/

/-- `t` is `s` after a cycle that raised a fault: the latch holds the cause, the information and the
address of the faulting instruction; PC is where the increments had moved it; nothing else but the
scratch pad differs (spec/60_exceptions.md rules R240, R241). -/
def State.faultedFrom (s t : State) (cause : Cause) (info pc : Int) : Prop :=
  t.faultValid = true ∧ t.faultCause = cause ∧ t.faultPc = s.pc ∧ t.faultInfo.toInt = info ∧
    t.pc.toInt = pc ∧ (∀ a, t.mem.read a = s.mem.read a) ∧ t.rb = s.rb ∧ t.inq = s.inq ∧
    t.outq = s.outq ∧ t.runState = s.runState ∧ t.program = s.program

/-- The fault latch is as before. -/
def State.keepsLatch (s t : State) : Prop :=
  t.faultValid = s.faultValid ∧ t.faultCause = s.faultCause ∧ t.faultPc = s.faultPc ∧
    t.faultInfo = s.faultInfo

/-- The run of a program is over, with a result (spec/46_halt.md rule R192). -/
abbrev State.runOver (s : State) : Prop := s.runState = .halted ∧ s.faultValid = false

/-! ### What can be seen -/

/-- Two states agree on everything the spec gives a value: all but the scratch pad, and the fault registers
only while FAULT_VALID is 1 (spec/93_implementation_defined.md section 2). -/
def State.agrees (s t : State) : Prop :=
  t.mem = s.mem ∧ t.pc = s.pc ∧ t.rb = s.rb ∧ t.inq = s.inq ∧ t.outq = s.outq ∧
    t.runState = s.runState ∧ t.program = s.program ∧ t.faultValid = s.faultValid ∧
    (s.faultValid = true →
      t.faultCause = s.faultCause ∧ t.faultPc = s.faultPc ∧ t.faultInfo = s.faultInfo)

/-- Two outcomes are alike: next states that agree, or the same stop. -/
def outcomesAgree : Host.Outcome State Fault Refusal → Host.Outcome State Fault Refusal → Prop
  | .next s, .next t => s.agrees t
  | .fault f, .fault g => f = g
  | .refused f, .refused g => f = g
  | _, _ => False

/-! ### The invariant -/

/-- What FAULT_INFO holds for a cause (rules R230 to R235). `InvalidState` is never latched (rule R233). -/
def Cause.explains (c : Cause) (info : Word) : Prop :=
  match c with
  | .invalidOpcode => decode info = .error .invalidOpcode
  | .invalidParameterMode => decode info = .error .invalidParameterMode
  | .invalidState => False
  | .invalidAddress => info.toInt < 0
  | .arithmeticOverflow => 1 ≤ info.toInt ∧ info.toInt ≤ 5

/-- What holds between any two cycles (rule R37). -/
structure State.Inv (s : State) : Prop where
  /-- Memory is in its canonical form. -/
  memory : s.mem.wf
  /-- A latched fault leaves the engine running, and its information fits its cause. -/
  latch : s.faultValid = true → s.runState = .running ∧ s.faultCause.explains s.faultInfo
  /-- A waiting engine has no fault and points at an IN. -/
  waiting : s.runState = .waitingForInput → s.faultValid = false ∧ 0 ≤ s.pc.toInt ∧
    ∃ m1 m2 m3, decode (s.mem.read s.pc.toNat) = .ok (.inp m1 m2 m3)
  /-- Operand addresses are not negative (rule R26). -/
  addresses : ∀ k, 0 ≤ (s.scratch.oa k).toInt

end Sys2Proof.Machine
end

