-- ==== Sys2Proof/Certificates/Slice0/Obligations.lean ====
section
/-!
DEFINITION. The statements for the provers. Each formalises or rests on the rules of spec/ its docstring
names. In the statements about one instruction `s` is the state in which the instruction's word was fetched
(PC at that word), and the scratch pad is left out of every frame: it is rebuilt in every cycle and its value
between cycles is unspecified (spec/10_state.md rule R26). A rule with a star is, or holds, an inference the
spec itself marks as derived; a statement that rests on one has basis 'derived'.
-/

open Sys2Proof Sys2Proof.Machine

/-! ### Encoding -/

/-- Words written out from the digits of spec/30_encoding.md rule R81 decode to what its section 7 says. -/
def Obligations.SampleWordsDecode : Prop :=
  decode 1 = .ok (.add .position .position .position) ∧
    decode 1001 = .ok (.add .position .immediate .position) ∧
    decode 21101 = .ok (.add .immediate .immediate .relative) ∧
    decode 2102 = .ok (.mul .immediate .relative .position) ∧
    decode 203 = .ok (.inp .relative .position .position) ∧
    decode 104 = .ok (.out .immediate .position .position) ∧
    decode 1105 = .ok (.jt .immediate .immediate .position) ∧
    decode 2106 = .ok (.jf .immediate .relative .position) ∧
    decode 20007 = .ok (.lt .position .position .relative) ∧
    decode 1108 = .ok (.eq .immediate .immediate .position) ∧
    decode 109 = .ok (.arb .immediate .position .position) ∧
    decode 1199 = .ok (.hlt .immediate .immediate .position) ∧
    decode 0 = .error .invalidOpcode ∧ decode 377 = .error .invalidOpcode ∧
    decode (-99) = .error .invalidOpcode ∧ decode 399 = .error .invalidParameterMode ∧
    decode 100001 = .error .invalidParameterMode

/-- Decode and encode are inverse: a word decodes to an instruction exactly when it is that instruction's word,
with every mode digit in every place. No digit is dropped, and no two words mean one instruction (rules R81,
R87). -/
def Obligations.DecodeAndEncodeAreInverse : Prop :=
  ∀ (w : Word) (i : Instr), decode w = .ok i ↔ encode i = w

/-- Rule R89*: the words that decode are exactly the 270 integers `100 * mf + op`, the smallest 1 and the
largest 22299. -/
def Obligations.DecodesExactlyTheLegalWords : Prop :=
  (∀ w : Word, (∃ i, decode w = .ok i) ↔ w.toInt ∈ legalInstructionWords) ∧
    legalInstructionWords.Nodup ∧ legalInstructionWords.length = 270 ∧
    (1 ∈ legalInstructionWords ∧ 22299 ∈ legalInstructionWords) ∧
    ∀ v ∈ legalInstructionWords, 1 ≤ v ∧ v ≤ 22299

/-- The four checks on a word accept exactly what the decoder accepts (rules R82*, R88, R90 to R92). -/
def Obligations.WellFormedWordsAreTheDecodableOnes : Prop :=
  ∀ w : Word, WellFormed.legalWord w = true ↔ ∃ i, decode w = .ok i

/-- Rules R90, R91, R231: a word that is negative, or whose opcode is not registered, raises `InvalidOpcode`
with the word as its information; PC stays at the word and nothing else changes; the fault is the response to
the host; and no cycle follows. -/
def Obligations.UnregisteredOpcodeIsLatched : Prop :=
  ∀ (s : State) (w : Word), s.runnable → 0 ≤ s.pc.toInt → s.mem.read s.pc.toNat = w →
    (w.toInt < 0 ∨ w.toInt % 100 ∉ opcodeNumbers) →
    ∃ t, t = { s with
        faultValid := true, faultCause := .invalidOpcode, faultPc := s.pc, faultInfo := w } ∧
      step s = .next t ∧ Returns .cycle s (.faulted .invalidOpcode w) t ∧
      step t = .fault .invalidState

/-- Rules R92, R232: a word with a registered opcode and a mode field above 999 or with a digit above 2, used
or not, raises `InvalidParameterMode` with the word as its information; PC stays at the word and nothing else
changes; the fault is the response to the host; and no cycle follows. -/
def Obligations.IllegalModeFieldIsLatched : Prop :=
  ∀ (s : State) (w : Word), s.runnable → 0 ≤ s.pc.toInt → s.mem.read s.pc.toNat = w →
    0 ≤ w.toInt → w.toInt % 100 ∈ opcodeNumbers →
    (999 < w.toInt / 100 ∨ 2 < w.toInt / 100 % 10 ∨ 2 < w.toInt / 1000 % 10 ∨
      2 < w.toInt / 10000 % 10) →
    ∃ t, t = { s with
        faultValid := true, faultCause := .invalidParameterMode, faultPc := s.pc, faultInfo := w } ∧
      step s = .next t ∧ Returns .cycle s (.faulted .invalidParameterMode w) t ∧
      step t = .fault .invalidState

/-! ### The cycle -/

/-- Where the word at PC decodes, a step of a runnable engine is `exec` of that instruction at the very
state: fetch and decode have moved nothing, and `exec` does the rest (rules R110 to R113, R131). -/
def Obligations.StepRunsTheDecodedInstruction : Prop :=
  ∀ (s : State) (i : Instr), s.runnable → 0 ≤ s.pc.toInt →
    decode (s.mem.read s.pc.toNat) = .ok i → step s = exec i s

/-- A fetch at a negative PC raises `InvalidAddress(PC)`; FAULT_PC and PC are that negative value, and
nothing else changes (rules R112, R163, R234). -/
def Obligations.NegativePcFaultsAtFetch : Prop :=
  ∀ s : State, s.runnable → s.pc.toInt < 0 →
    step s = .next { s with
      faultValid := true, faultCause := .invalidAddress, faultPc := s.pc, faultInfo := s.pc }

/-- A step of an engine that waits, has halted or holds a fault is rejected (rules R111, R233). -/
def Obligations.NoCycleStartsUnlessRunnable : Prop :=
  ∀ s : State, (s.runState ≠ .running ∨ s.faultValid = true) → step s = .fault .invalidState

/-- Every cycle of a runnable engine ends in a next state, whatever memory and registers hold. -/
def Obligations.EveryStartedCycleAnswersNext : Prop :=
  ∀ s : State, s.runnable → ∃ t, step s = .next t

/-! ### ADD and MUL -/

/-- ADD (rule R141), the sum in range: the exact sum is stored at the write target, PC moves by 4, all else
is unchanged. -/
def Obligations.AddStoresTheExactSum : Prop :=
  ∀ (s : State) (m1 m2 m3 : Mode), s.ready (.add m1 m2 m3) →
    fits ((s.operandWord m1 .one).toInt + (s.operandWord m2 .two).toInt) →
    ∃ t, exec (.add m1 m2 m3) s = .next t ∧ t.pc.toInt = s.pc.toInt + 4 ∧
      (∀ a : Nat, (a : Int) = s.paramAddress .write m3 .three →
        (t.mem.read a).toInt = (s.operandWord m1 .one).toInt + (s.operandWord m2 .two).toInt) ∧
      (∀ a : Nat, (a : Int) ≠ s.paramAddress .write m3 .three → t.mem.read a = s.mem.read a) ∧
      t.rb = s.rb ∧ t.inq = s.inq ∧ t.outq = s.outq ∧ t.runState = s.runState ∧
      t.program = s.program ∧ s.keepsLatch t

/-- ADD (rules R141, R235, R241*), the sum out of range: overflow kind 1, PC at PC0 + 4, nothing written. -/
def Obligations.AddOverflowIsLatched : Prop :=
  ∀ (s : State) (m1 m2 m3 : Mode), s.ready (.add m1 m2 m3) →
    ¬ fits ((s.operandWord m1 .one).toInt + (s.operandWord m2 .two).toInt) →
    ∃ t, exec (.add m1 m2 m3) s = .next t ∧
      s.faultedFrom t .arithmeticOverflow 1 (s.pc.toInt + 4)

/-- MUL (rule R142), the product in range: the exact product is stored, PC moves by 4, all else is
unchanged. -/
def Obligations.MulStoresTheExactProduct : Prop :=
  ∀ (s : State) (m1 m2 m3 : Mode), s.ready (.mul m1 m2 m3) →
    fits ((s.operandWord m1 .one).toInt * (s.operandWord m2 .two).toInt) →
    ∃ t, exec (.mul m1 m2 m3) s = .next t ∧ t.pc.toInt = s.pc.toInt + 4 ∧
      (∀ a : Nat, (a : Int) = s.paramAddress .write m3 .three →
        (t.mem.read a).toInt = (s.operandWord m1 .one).toInt * (s.operandWord m2 .two).toInt) ∧
      (∀ a : Nat, (a : Int) ≠ s.paramAddress .write m3 .three → t.mem.read a = s.mem.read a) ∧
      t.rb = s.rb ∧ t.inq = s.inq ∧ t.outq = s.outq ∧ t.runState = s.runState ∧
      t.program = s.program ∧ s.keepsLatch t

/-- MUL (rules R142, R235, R241*), the product out of range: overflow kind 2, PC at PC0 + 4, nothing
written. -/
def Obligations.MulOverflowIsLatched : Prop :=
  ∀ (s : State) (m1 m2 m3 : Mode), s.ready (.mul m1 m2 m3) →
    ¬ fits ((s.operandWord m1 .one).toInt * (s.operandWord m2 .two).toInt) →
    ∃ t, exec (.mul m1 m2 m3) s = .next t ∧
      s.faultedFrom t .arithmeticOverflow 2 (s.pc.toInt + 4)

/-! ### LT and EQ -/

/-- LT (rules R171, R173*): the word 1 or 0 of the signed comparison is stored, whatever the operands; PC
moves by 4, all else is unchanged. -/
def Obligations.LtStoresTheSignedComparison : Prop :=
  ∀ (s : State) (m1 m2 m3 : Mode), s.ready (.lt m1 m2 m3) →
    ∃ t, exec (.lt m1 m2 m3) s = .next t ∧ t.pc.toInt = s.pc.toInt + 4 ∧
      (∀ a : Nat, (a : Int) = s.paramAddress .write m3 .three →
        (t.mem.read a).toInt =
          if (s.operandWord m1 .one).toInt < (s.operandWord m2 .two).toInt then 1 else 0) ∧
      (∀ a : Nat, (a : Int) ≠ s.paramAddress .write m3 .three → t.mem.read a = s.mem.read a) ∧
      t.rb = s.rb ∧ t.inq = s.inq ∧ t.outq = s.outq ∧ t.runState = s.runState ∧
      t.program = s.program ∧ s.keepsLatch t

/-- EQ (rules R172, R173*): the word 1 or 0 of the equality is stored, whatever the operands; PC moves by 4,
all else is unchanged. -/
def Obligations.EqStoresTheEquality : Prop :=
  ∀ (s : State) (m1 m2 m3 : Mode), s.ready (.eq m1 m2 m3) →
    ∃ t, exec (.eq m1 m2 m3) s = .next t ∧ t.pc.toInt = s.pc.toInt + 4 ∧
      (∀ a : Nat, (a : Int) = s.paramAddress .write m3 .three →
        (t.mem.read a).toInt =
          if (s.operandWord m1 .one).toInt = (s.operandWord m2 .two).toInt then 1 else 0) ∧
      (∀ a : Nat, (a : Int) ≠ s.paramAddress .write m3 .three → t.mem.read a = s.mem.read a) ∧
      t.rb = s.rb ∧ t.inq = s.inq ∧ t.outq = s.outq ∧ t.runState = s.runState ∧
      t.program = s.program ∧ s.keepsLatch t

/-! ### IN and OUT -/

/-- IN (rule R151) with input: the oldest entry leaves INQ and is stored at the write target; PC moves by 2,
all else is unchanged. -/
def Obligations.InStoresTheOldestInput : Prop :=
  ∀ (s : State) (m1 m2 m3 : Mode) (v : Word) (rest : List Word), s.ready (.inp m1 m2 m3) →
    s.inq = v :: rest →
    ∃ t, exec (.inp m1 m2 m3) s = .next t ∧ t.pc.toInt = s.pc.toInt + 2 ∧ t.inq = rest ∧
      (∀ a : Nat, (a : Int) = s.paramAddress .write m1 .one → t.mem.read a = v) ∧
      (∀ a : Nat, (a : Int) ≠ s.paramAddress .write m1 .one → t.mem.read a = s.mem.read a) ∧
      t.rb = s.rb ∧ t.outq = s.outq ∧ t.runState = s.runState ∧ t.program = s.program ∧
      s.keepsLatch t

/-- IN (rule R151) without input: PC is back at the IN and the engine waits; memory, RB and the queues are
unchanged. -/
def Obligations.InWaitsOnAnEmptyQueue : Prop :=
  ∀ (s : State) (m1 m2 m3 : Mode), s.ready (.inp m1 m2 m3) → s.inq = [] →
    ∃ t, exec (.inp m1 m2 m3) s = .next t ∧ t.pc = s.pc ∧ t.runState = .waitingForInput ∧
      (∀ a, t.mem.read a = s.mem.read a) ∧ t.rb = s.rb ∧ t.inq = [] ∧ t.outq = s.outq ∧
      t.program = s.program ∧ s.keepsLatch t

/-- OUT (rule R152): the operand becomes the newest entry of OUTQ; PC moves by 2, all else is unchanged. -/
def Obligations.OutAppendsTheOperand : Prop :=
  ∀ (s : State) (m1 m2 m3 : Mode), s.ready (.out m1 m2 m3) →
    ∃ t, exec (.out m1 m2 m3) s = .next t ∧ t.pc.toInt = s.pc.toInt + 2 ∧
      t.outq = s.outq ++ [s.operandWord m1 .one] ∧ (∀ a, t.mem.read a = s.mem.read a) ∧
      t.rb = s.rb ∧ t.inq = s.inq ∧ t.runState = s.runState ∧ t.program = s.program ∧
      s.keepsLatch t

/-! ### JT and JF -/

/-- JT (rules R161, R163): PC takes the whole target word, negative or not, when the condition is not 0, and
moves by 3 when it is 0; all else is unchanged. -/
def Obligations.JtJumpsWhenNotZero : Prop :=
  ∀ (s : State) (m1 m2 m3 : Mode), s.ready (.jt m1 m2 m3) →
    ∃ t, exec (.jt m1 m2 m3) s = .next t ∧
      ((s.operandWord m1 .one).toInt ≠ 0 → t.pc = s.operandWord m2 .two) ∧
      ((s.operandWord m1 .one).toInt = 0 → t.pc.toInt = s.pc.toInt + 3) ∧
      (∀ a, t.mem.read a = s.mem.read a) ∧ t.rb = s.rb ∧ t.inq = s.inq ∧ t.outq = s.outq ∧
      t.runState = s.runState ∧ t.program = s.program ∧ s.keepsLatch t

/-- JF (rules R162, R163): PC takes the whole target word, negative or not, when the condition is 0, and
moves by 3 when it is not; all else is unchanged. -/
def Obligations.JfJumpsWhenZero : Prop :=
  ∀ (s : State) (m1 m2 m3 : Mode), s.ready (.jf m1 m2 m3) →
    ∃ t, exec (.jf m1 m2 m3) s = .next t ∧
      ((s.operandWord m1 .one).toInt = 0 → t.pc = s.operandWord m2 .two) ∧
      ((s.operandWord m1 .one).toInt ≠ 0 → t.pc.toInt = s.pc.toInt + 3) ∧
      (∀ a, t.mem.read a = s.mem.read a) ∧ t.rb = s.rb ∧ t.inq = s.inq ∧ t.outq = s.outq ∧
      t.runState = s.runState ∧ t.program = s.program ∧ s.keepsLatch t

/-! ### ARB and HLT -/

/-- ARB (rule R181), the sum in range: RB becomes RB plus the operand, which is resolved with the old RB; PC
moves by 2, all else is unchanged. -/
def Obligations.ArbAddsTheOperandToRb : Prop :=
  ∀ (s : State) (m1 m2 m3 : Mode), s.ready (.arb m1 m2 m3) →
    fits (s.rb.toInt + (s.operandWord m1 .one).toInt) →
    ∃ t, exec (.arb m1 m2 m3) s = .next t ∧ t.pc.toInt = s.pc.toInt + 2 ∧
      t.rb.toInt = s.rb.toInt + (s.operandWord m1 .one).toInt ∧
      (∀ a, t.mem.read a = s.mem.read a) ∧ t.inq = s.inq ∧ t.outq = s.outq ∧
      t.runState = s.runState ∧ t.program = s.program ∧ s.keepsLatch t

/-- ARB (rules R181, R235, R241*), the sum out of range: overflow kind 3, PC at PC0 + 2, RB unchanged. -/
def Obligations.ArbOverflowIsLatched : Prop :=
  ∀ (s : State) (m1 m2 m3 : Mode), s.ready (.arb m1 m2 m3) →
    ¬ fits (s.rb.toInt + (s.operandWord m1 .one).toInt) →
    ∃ t, exec (.arb m1 m2 m3) s = .next t ∧
      s.faultedFrom t .arithmeticOverflow 3 (s.pc.toInt + 2)

/-- HLT (rule R191), with any legal mode digits: the engine halts, PC moves by 1, all else is unchanged. -/
def Obligations.HltHalts : Prop :=
  ∀ (s : State) (m1 m2 m3 : Mode), s.ready (.hlt m1 m2 m3) →
    ∃ t, exec (.hlt m1 m2 m3) s = .next t ∧ t.pc.toInt = s.pc.toInt + 1 ∧ t.runState = .halted ∧
      (∀ a, t.mem.read a = s.mem.read a) ∧ t.rb = s.rb ∧ t.inq = s.inq ∧ t.outq = s.outq ∧
      t.program = s.program ∧ s.keepsLatch t

/-! ### Faults of the common steps -/

/-- Rule R126 with R234, R238 and R241*: the first parameter whose exact address fits `int64` and is negative
raises `InvalidAddress` of that address, for every instruction and whether or not it would use the address;
PC is left at that parameter word. -/
def Obligations.NegativeAddressIsLatched : Prop :=
  ∀ (s : State) (i : Instr) (k : Param), k ∈ Param.first i.paramCount →
    s.roomFor k.offset → (∀ j : Param, j.offset < k.offset → s.resolves i j) →
    intMin ≤ s.paramAddress (i.kind k) (i.mode k) k →
    s.paramAddress (i.kind k) (i.mode k) k < 0 →
    ∃ t, exec i s = .next t ∧
      s.faultedFrom t .invalidAddress (s.paramAddress (i.kind k) (i.mode k) k)
        (s.pc.toInt + k.offset)

/-- Rules R122 and R124 with R235, R238 and R241*: the first parameter whose relative address does not fit
`int64` raises overflow kind 4, before its sign is looked at; PC is left at that parameter word. -/
def Obligations.RelativeAddressOverflowIsLatched : Prop :=
  ∀ (s : State) (i : Instr) (k : Param), k ∈ Param.first i.paramCount →
    s.roomFor k.offset → (∀ j : Param, j.offset < k.offset → s.resolves i j) →
    i.mode k = .relative → ¬ fits ((s.paramWord k).toInt + s.rb.toInt) →
    ∃ t, exec i s = .next t ∧
      s.faultedFrom t .arithmeticOverflow 4 (s.pc.toInt + k.offset)

/-- Rule R132: an increment of PC at `INT_MAX`, after decode (`n = 0`) or after parameter `n`, raises overflow
kind 5 and leaves PC at `INT_MAX`; every instruction does so, a HLT too. -/
def Obligations.PcIncrementOverflowIsLatched : Prop :=
  ∀ (s : State) (i : Instr) (n : Nat), n ≤ i.paramCount → 0 ≤ s.pc.toInt →
    s.pc.toInt + n = intMax → (∀ k ∈ Param.first n, s.resolves i k) →
    ∃ t, exec i s = .next t ∧ s.faultedFrom t .arithmeticOverflow 5 intMax

/-- Rules R241*, R242*, R244: after a cycle that faulted, memory, RB, the queues, the run state and the Program
are as before it, FAULT_PC names the faulting instruction, and no cycle starts any more. -/
def Obligations.FaultsArePrecise : Prop :=
  ∀ s t : State, step s = .next t → t.faultValid = true →
    (∀ a, t.mem.read a = s.mem.read a) ∧ t.rb = s.rb ∧ t.inq = s.inq ∧ t.outq = s.outq ∧
      t.runState = s.runState ∧ t.program = s.program ∧ t.faultPc = s.pc ∧
      step t = .fault .invalidState

/-! ### Whole-machine rules -/

/-- Rule R180: among instructions only ARB changes RB. -/
def Obligations.OnlyArbChangesRb : Prop :=
  ∀ (i : Instr) (s t : State), exec i s = .next t → t.rb ≠ s.rb → i.opcode = .arb

/-- Rules R30, R32: INQ only loses its oldest entry, and only to IN; OUTQ only gains a newest entry, and only
from OUT. -/
def Obligations.QueuesMoveOneEntryInOrder : Prop :=
  ∀ (i : Instr) (s t : State), exec i s = .next t →
    (t.inq = s.inq ∨ i.opcode = .inp ∧ ∃ v, s.inq = v :: t.inq) ∧
      (t.outq = s.outq ∨ i.opcode = .out ∧ ∃ v, t.outq = s.outq ++ [v])

/-- Rules R60*, R125, R129*: a cycle changes memory at no address but the write target of ADD, MUL, LT or EQ
(parameter 3) or of IN (parameter 1). -/
def Obligations.OnlyTheWriteTargetChanges : Prop :=
  ∀ (i : Instr) (s t : State) (a : Nat), exec i s = .next t →
    t.mem.read a ≠ s.mem.read a →
    ∃ k ∈ Param.first i.paramCount, i.kind k = .write ∧
      (a : Int) = s.paramAddress .write (i.mode k) k

/-- Rule R28, the arrows a cycle takes: a cycle starts from `Running`, and ends in `WaitingForInput` only by an
IN that found INQ empty, in `Halted` only by a HLT, and otherwise in `Running`. -/
def Obligations.CyclesFollowTheRunStateArrows : Prop :=
  ∀ s t : State, step s = .next t →
    s.runState = .running ∧
      (t.runState = .running ∨
        (t.runState = .waitingForInput ∧ s.inq = [] ∧
          ∃ m1 m2 m3, decode (s.mem.read s.pc.toNat) = .ok (.inp m1 m2 m3)) ∨
        (t.runState = .halted ∧
          ∃ m1 m2 m3, decode (s.mem.read s.pc.toNat) = .ok (.hlt m1 m2 m3)))

/-- Rule R93: mode 1 on a write target behaves as mode 0, for every instruction that has a write target. -/
def Obligations.ImmediateWriteTargetIsPosition : Prop :=
  ∀ (s : State) (m m' : Mode),
    outcomesAgree (exec (.add m m' .immediate) s) (exec (.add m m' .position) s) ∧
      outcomesAgree (exec (.mul m m' .immediate) s) (exec (.mul m m' .position) s) ∧
      outcomesAgree (exec (.lt m m' .immediate) s) (exec (.lt m m' .position) s) ∧
      outcomesAgree (exec (.eq m m' .immediate) s) (exec (.eq m m' .position) s) ∧
      outcomesAgree (exec (.inp .immediate m m') s) (exec (.inp .position m m') s)

/-- Rule R94: legal mode digits of parameters an opcode does not have select nothing. -/
def Obligations.UnusedModeDigitsAreIgnored : Prop :=
  ∀ (s : State) (m1 m2 m3 n1 n2 n3 : Mode),
    outcomesAgree (exec (.inp m1 m2 m3) s) (exec (.inp m1 n2 n3) s) ∧
      outcomesAgree (exec (.out m1 m2 m3) s) (exec (.out m1 n2 n3) s) ∧
      outcomesAgree (exec (.arb m1 m2 m3) s) (exec (.arb m1 n2 n3) s) ∧
      outcomesAgree (exec (.jt m1 m2 m3) s) (exec (.jt m1 m2 n3) s) ∧
      outcomesAgree (exec (.jf m1 m2 m3) s) (exec (.jf m1 m2 n3) s) ∧
      outcomesAgree (exec (.hlt m1 m2 m3) s) (exec (.hlt n1 n2 n3) s)

/-- The registers the spec leaves unspecified (the scratch pad always, FAULT_CAUSE, FAULT_PC and FAULT_INFO
while FAULT_VALID is 0) cannot influence a step: states that agree on the rest step alike. So no claim about
the rest rests on the values the model gives them at reset (log entries 4 and 5; rules R26, R29). -/
def Obligations.UnspecifiedRegistersAreNeverRead : Prop :=
  ∀ s t : State, s.agrees t → outcomesAgree (step s) (step t)

/-! ### Memory -/

/-- Rules R53 and R54: a read of a negative address raises and of any other gives the word there; a write to
a negative address raises and to any other succeeds and replaces that word alone. -/
def Obligations.MemoryPrimitivesFollowTheirRules : Prop :=
  ∀ (s : State) (a v : Word),
    (a.toInt < 0 → s.memRead a = .error ⟨.invalidAddress, a, s⟩ ∧
      s.memWrite a v = .error ⟨.invalidAddress, a, s⟩) ∧
    (0 ≤ a.toInt → s.memRead a = .ok (s.mem.read a.toNat) ∧
      ∃ m, s.memWrite a v = .ok { s with mem := m } ∧ m.read a.toNat = v ∧
        ∀ b, b ≠ a.toNat → m.read b = s.mem.read b)

/-- Memories in canonical form that read alike are the same data, so memory is the total function of rule
R50 and which bank backs an address cannot be seen (rule R56). The canonical form is the model's choice (log
entry 3). -/
def Obligations.CanonicalMemoriesAreTheirReads : Prop :=
  ∀ m n : Memory, m.wf → n.wf → (∀ a, m.read a = n.read a) → m = n

/-! ### Reset -/

/-- Rule R34, with R203 and R204: the host's `reset` and `load` are accepted in every state, return nothing, and
leave `State.restart` and `State.loadProgram`; those, and the instance `new` makes, hold the reset values. -/
def Obligations.ResetLeavesTheResetValues : Prop :=
  (∀ (s : State) (r : Response) (t : State), Returns .reset s r t ↔ r = .done ∧ t = s.restart) ∧
    (∀ (program : List Word) (s : State) (r : Response) (t : State),
      Returns (.load program) s r t ↔ r = .done ∧ t = s.loadProgram program) ∧
    ∀ (s : State) (program : List Word) (t : State) (p : List Word),
      ((t = s.restart ∧ p = s.program) ∨ (t = s.loadProgram program ∧ p = program) ∨
        (t = State.new program ∧ p = program)) →
      (∀ a : Nat, (a : Int) ≤ intMax → t.mem.read a = p.getD a 0) ∧ t.pc = 0 ∧ t.rb = 0 ∧
        t.inq = [] ∧ t.outq = [] ∧ t.runState = .running ∧ t.faultValid = false ∧ t.program = p

/-- Rules R204, R272: a reset after any cycle leaves exactly what a reset before it would have left, which is
a fresh instance of the stored Program; so a reset is idempotent. That the registers the spec leaves unspecified
come out equal too is the model's choice (log entries 4 and 5). -/
def Obligations.ResetForgetsTheRun : Prop :=
  (∀ s t : State, step s = .next t → t.restart = s.restart) ∧
    ∀ s : State, s.restart = State.new s.program ∧ s.restart.restart = s.restart

/-! ### Host commands -/

/-- Rule R205: `push_input` appends to INQ in every state and changes nothing else. -/
def Obligations.PushInputAppends : Prop :=
  ∀ (n : Nat) (s : State) (v : Word),
    s.command n (.pushInput v) = some (.done, { s with inq := s.inq ++ [v] })

/-- Rule R209: `drain_output` returns all of OUTQ, oldest first, and empties it, in every state. -/
def Obligations.DrainOutputReturnsAndClears : Prop :=
  ∀ (n : Nat) (s : State), s.command n .drainOutput = some (.output s.outq, { s with outq := [] })

/-- Rule R206: `run` is rejected, with nothing changed, unless the engine can run; otherwise it
performs a cycle and comes back with it if the cycle faulted or left `Running`, and goes on from there if
not. -/
def Obligations.RunRepeatsCycles : Prop :=
  ∀ (s : State) (r : Response) (t : State),
    Returns .run s r t ↔
      (¬ s.runnable ∧ r = .rejected .invalidState ∧ t = s) ∨
        (s.runnable ∧ ∃ u, step s = .next u ∧
          ((u.faultValid = true ∧ r = .faulted u.faultCause u.faultInfo ∧ t = u) ∨
            (u.faultValid = false ∧ u.runState ≠ .running ∧ r = .stopped u.runState ∧ t = u) ∨
            (u.runnable ∧ Returns .run u r t)))

/-- Rules R208, R211: `cycle` is rejected, with nothing changed, unless the engine can run; otherwise it performs
one step, leaves the step's state, and reports the fault that state holds or, where it holds none, its run
state. -/
def Obligations.CycleReportsItsStep : Prop :=
  ∀ (s : State) (r : Response) (t : State),
    Returns .cycle s r t ↔
      (¬ s.runnable ∧ r = .rejected .invalidState ∧ t = s) ∨
        (s.runnable ∧ step s = .next t ∧
          ((t.faultValid = true ∧ r = .faulted t.faultCause t.faultInfo) ∨
            (t.faultValid = false ∧ r = .stopped t.runState)))

/-- Rule R207: `resume` of a waiting engine with no fault sets `Running` and then is `run`; in every other
state it is rejected with nothing changed. -/
def Obligations.ResumeRunsAWaitingEngine : Prop :=
  ∀ (s : State) (r : Response) (t : State),
    Returns .resume s r t ↔
      if s.runState = .waitingForInput ∧ s.faultValid = false then
        Returns .run { s with runState := .running } r t
      else r = .rejected .invalidState ∧ t = s

/-- Rule R214: `InvalidState` rejects `cycle` and `run` exactly when the engine cannot run, `resume` exactly when
it is not waiting or holds a fault, and no other command. -/
def Obligations.CommandsAreRejectedByTheMatrix : Prop :=
  ∀ (c : Command) (s : State),
    (∃ t, Returns c s (.rejected .invalidState) t) ↔
      ((c = .cycle ∨ c = .run) ∧ ¬ s.runnable) ∨
        (c = .resume ∧ ¬ (s.runState = .waitingForInput ∧ s.faultValid = false))

/-- Rule R201: a rejected command changes no state at all. -/
def Obligations.RejectionChangesNothing : Prop :=
  ∀ (c : Command) (s : State) (e : Rejection) (t : State), Returns c s (.rejected e) t → t = s

/-- Rules R210, R212, R213: every introspection command is answered in every state, from the state, and
changes nothing. -/
def Obligations.IntrospectionOnlyReads : Prop :=
  ∀ (n : Nat) (s : State) (a : Word),
    (a.toInt < 0 → s.command n (.peek a) = some (.rejected .invalidAddress, s)) ∧
      (0 ≤ a.toInt → s.command n (.peek a) = some (.word (s.mem.read a.toNat), s)) ∧
      s.command n .halted = some (.flag (s.runState = .halted), s) ∧
      s.command n .outCount = some (.count s.outq.length, s) ∧
      s.command n .inCount = some (.count s.inq.length, s) ∧
      s.command n .runState = some (.state s.runState, s) ∧
      s.command n .readPc = some (.word s.pc, s) ∧ s.command n .readRb = some (.word s.rb, s) ∧
      (s.faultValid = true → s.command n .readFault =
        some (.latch (some (s.faultCause, s.faultPc, s.faultInfo)), s)) ∧
      (s.faultValid = false → s.command n .readFault = some (.latch none, s))

/-- Rules R28, R191, R192*: a run that is over stays over; only `reset` and `load` leave `Halted`. -/
def Obligations.OnlyResetLeavesHalted : Prop :=
  ∀ (c : Command) (s : State) (r : Response) (t : State), Returns c s r t → s.runOver →
    t.runOver ∨ c = .reset ∨ ∃ program, c = .load program

/-- Rules R29, R244, R245*: a latched fault stays latched, with its three registers, PC and RB; only `reset`
and `load` clear it. -/
def Obligations.OnlyResetClearsTheLatch : Prop :=
  ∀ (c : Command) (s : State) (r : Response) (t : State), Returns c s r t → s.faultValid = true →
    (s.keepsLatch t ∧ t.pc = s.pc ∧ t.rb = s.rb ∧ t.runState = s.runState ∧ t.mem = s.mem) ∨
      c = .reset ∨ ∃ program, c = .load program

/-- Rule R31: no cycle, and no command but `load`, replaces PROGRAM. -/
def Obligations.OnlyLoadReplacesTheProgram : Prop :=
  ∀ (c : Command) (s : State) (r : Response) (t : State), Returns c s r t →
    t.program = s.program ∨ c = .load t.program

/-- No command comes back in two ways: the count of cycles it is watched for, the model's form (log entry 9), does
not show (rule R252 bounds no run). -/
def Obligations.CommandsReturnAtMostOnce : Prop :=
  ∀ (c : Command) (s : State) (r r' : Response) (t t' : State),
    Returns c s r t → Returns c s r' t' → r = r' ∧ t = t'

/-- Rule R151 and property S5: after an IN that found INQ empty, pushing input and going on runs the very cycle
that the engine would have run with the input pushed before. -/
def Obligations.LateInputIsAsGoodAsEarlyInput : Prop :=
  ∀ (s t : State) (v : Word), step s = .next t → t.runState = .waitingForInput →
    step { t with inq := t.inq ++ [v], runState := .running } = step { s with inq := s.inq ++ [v] }

/-- Rule R252: a cycle that leaves all that can be seen as it was repeats for ever, and `run` never comes
back. -/
def Obligations.UnchangingCycleHangs : Prop :=
  ∀ s t : State, step s = .next t → s.agrees t → Hangs .run s

/-! ### Several instances -/

/-- Rules R36, R248*: a command on one instance acts on that instance alone, as it would on that instance by
itself; every other instance stays as it was. -/
def Obligations.InstancesShareNothing : Prop :=
  ∀ (b b' : Instances) (n k : Nat) (c : Command) (r : Response),
    b.command n k c = some (r, b') →
    (∃ s t, b[k]? = some s ∧ s.command n c = some (r, t) ∧ b'[k]? = some t) ∧
      ∀ j, j ≠ k → b'[j]? = b[j]?

/-- Rule R248*: commands on two instances give the same responses and states in either order. -/
def Obligations.CommandsOnTwoInstancesCommute : Prop :=
  ∀ (b b1 b2 : Instances) (n n' j k : Nat) (c d : Command) (r r' : Response), j ≠ k →
    b.command n j c = some (r, b1) → b1.command n' k d = some (r', b2) →
    ∃ b1', b.command n' k d = some (r', b1') ∧ b1'.command n j c = some (r, b2)

/-! ### The invariant -/

/-- Every instance begins with the invariant, `State.reset` among them. The canonical form of memory and the
reset values of the scratch pad are the model's choices (log entries 3 and 5). -/
def Obligations.NewInstanceSatisfiesTheInvariant : Prop :=
  State.reset.Inv ∧ ∀ program : List Word, (State.new program).Inv

/-- Every step keeps the invariant (rule R37*), from every state that meets it. The canonical form of memory is the
model's choice (log entry 3). -/
def Obligations.StepKeepsTheInvariant : Prop :=
  ∀ s t : State, s.Inv → step s = .next t → t.Inv

/-- Every host command keeps the invariant (rule R37*), from every state that meets it. The canonical form of
memory is the model's choice (log entry 3). -/
def Obligations.CommandsKeepTheInvariant : Prop :=
  ∀ (c : Command) (s : State) (r : Response) (t : State), s.Inv → Returns c s r t → t.Inv

/-! ### Placing a word -/

/-- The model's own convention (log entry 6): after `withFetchWord` the very next step runs the instruction
that was placed. -/
def Obligations.PlacedWordIsTheNextInstruction : Prop :=
  ∀ (s : State) (nbits w : Nat) (i : Instr), decodeTableWord nbits w = some i →
    step (s.withFetchWord nbits w) = exec i (s.withFetchWord nbits w)
end

