-- ==== Sys2Proof/Laws/State.lean ====
section
/-!
SUPPORT. What each update of the state does to each field: one lemma per field per update, so that no proof
unfolds a record update.
-/

namespace Sys2Proof.Machine

/-! ### setPc -/

@[simp] theorem State.setPc_mem (s : State) (v : Word) : (s.setPc v).mem = s.mem := rfl
@[simp] theorem State.setPc_pc (s : State) (v : Word) : (s.setPc v).pc = v := rfl
@[simp] theorem State.setPc_rb (s : State) (v : Word) : (s.setPc v).rb = s.rb := rfl
@[simp] theorem State.setPc_inq (s : State) (v : Word) : (s.setPc v).inq = s.inq := rfl
@[simp] theorem State.setPc_outq (s : State) (v : Word) : (s.setPc v).outq = s.outq := rfl
@[simp] theorem State.setPc_runState (s : State) (v : Word) : (s.setPc v).runState = s.runState := rfl
@[simp] theorem State.setPc_program (s : State) (v : Word) : (s.setPc v).program = s.program := rfl
@[simp] theorem State.setPc_faultValid (s : State) (v : Word) : (s.setPc v).faultValid = s.faultValid := rfl
@[simp] theorem State.setPc_faultCause (s : State) (v : Word) : (s.setPc v).faultCause = s.faultCause := rfl
@[simp] theorem State.setPc_faultPc (s : State) (v : Word) : (s.setPc v).faultPc = s.faultPc := rfl
@[simp] theorem State.setPc_faultInfo (s : State) (v : Word) : (s.setPc v).faultInfo = s.faultInfo := rfl
@[simp] theorem State.setPc_scratch (s : State) (v : Word) : (s.setPc v).scratch = s.scratch := rfl

/-! ### setRb -/

@[simp] theorem State.setRb_mem (s : State) (v : Word) : (s.setRb v).mem = s.mem := rfl
@[simp] theorem State.setRb_pc (s : State) (v : Word) : (s.setRb v).pc = s.pc := rfl
@[simp] theorem State.setRb_rb (s : State) (v : Word) : (s.setRb v).rb = v := rfl
@[simp] theorem State.setRb_inq (s : State) (v : Word) : (s.setRb v).inq = s.inq := rfl
@[simp] theorem State.setRb_outq (s : State) (v : Word) : (s.setRb v).outq = s.outq := rfl
@[simp] theorem State.setRb_runState (s : State) (v : Word) : (s.setRb v).runState = s.runState := rfl
@[simp] theorem State.setRb_program (s : State) (v : Word) : (s.setRb v).program = s.program := rfl
@[simp] theorem State.setRb_faultValid (s : State) (v : Word) : (s.setRb v).faultValid = s.faultValid := rfl
@[simp] theorem State.setRb_faultCause (s : State) (v : Word) : (s.setRb v).faultCause = s.faultCause := rfl
@[simp] theorem State.setRb_faultPc (s : State) (v : Word) : (s.setRb v).faultPc = s.faultPc := rfl
@[simp] theorem State.setRb_faultInfo (s : State) (v : Word) : (s.setRb v).faultInfo = s.faultInfo := rfl
@[simp] theorem State.setRb_scratch (s : State) (v : Word) : (s.setRb v).scratch = s.scratch := rfl

/-! ### setMem -/

@[simp] theorem State.setMem_mem (s : State) (m : Memory) : (s.setMem m).mem = m := rfl
@[simp] theorem State.setMem_pc (s : State) (m : Memory) : (s.setMem m).pc = s.pc := rfl
@[simp] theorem State.setMem_rb (s : State) (m : Memory) : (s.setMem m).rb = s.rb := rfl
@[simp] theorem State.setMem_inq (s : State) (m : Memory) : (s.setMem m).inq = s.inq := rfl
@[simp] theorem State.setMem_outq (s : State) (m : Memory) : (s.setMem m).outq = s.outq := rfl
@[simp] theorem State.setMem_runState (s : State) (m : Memory) : (s.setMem m).runState = s.runState := rfl
@[simp] theorem State.setMem_program (s : State) (m : Memory) : (s.setMem m).program = s.program := rfl
@[simp] theorem State.setMem_faultValid (s : State) (m : Memory) : (s.setMem m).faultValid = s.faultValid := rfl
@[simp] theorem State.setMem_faultCause (s : State) (m : Memory) : (s.setMem m).faultCause = s.faultCause := rfl
@[simp] theorem State.setMem_faultPc (s : State) (m : Memory) : (s.setMem m).faultPc = s.faultPc := rfl
@[simp] theorem State.setMem_faultInfo (s : State) (m : Memory) : (s.setMem m).faultInfo = s.faultInfo := rfl
@[simp] theorem State.setMem_scratch (s : State) (m : Memory) : (s.setMem m).scratch = s.scratch := rfl

/-! ### setInq -/

@[simp] theorem State.setInq_mem (s : State) (q : List Word) : (s.setInq q).mem = s.mem := rfl
@[simp] theorem State.setInq_pc (s : State) (q : List Word) : (s.setInq q).pc = s.pc := rfl
@[simp] theorem State.setInq_rb (s : State) (q : List Word) : (s.setInq q).rb = s.rb := rfl
@[simp] theorem State.setInq_inq (s : State) (q : List Word) : (s.setInq q).inq = q := rfl
@[simp] theorem State.setInq_outq (s : State) (q : List Word) : (s.setInq q).outq = s.outq := rfl
@[simp] theorem State.setInq_runState (s : State) (q : List Word) : (s.setInq q).runState = s.runState := rfl
@[simp] theorem State.setInq_program (s : State) (q : List Word) : (s.setInq q).program = s.program := rfl
@[simp] theorem State.setInq_faultValid (s : State) (q : List Word) : (s.setInq q).faultValid = s.faultValid := rfl
@[simp] theorem State.setInq_faultCause (s : State) (q : List Word) : (s.setInq q).faultCause = s.faultCause := rfl
@[simp] theorem State.setInq_faultPc (s : State) (q : List Word) : (s.setInq q).faultPc = s.faultPc := rfl
@[simp] theorem State.setInq_faultInfo (s : State) (q : List Word) : (s.setInq q).faultInfo = s.faultInfo := rfl
@[simp] theorem State.setInq_scratch (s : State) (q : List Word) : (s.setInq q).scratch = s.scratch := rfl

/-! ### setOutq -/

@[simp] theorem State.setOutq_mem (s : State) (q : List Word) : (s.setOutq q).mem = s.mem := rfl
@[simp] theorem State.setOutq_pc (s : State) (q : List Word) : (s.setOutq q).pc = s.pc := rfl
@[simp] theorem State.setOutq_rb (s : State) (q : List Word) : (s.setOutq q).rb = s.rb := rfl
@[simp] theorem State.setOutq_inq (s : State) (q : List Word) : (s.setOutq q).inq = s.inq := rfl
@[simp] theorem State.setOutq_outq (s : State) (q : List Word) : (s.setOutq q).outq = q := rfl
@[simp] theorem State.setOutq_runState (s : State) (q : List Word) : (s.setOutq q).runState = s.runState := rfl
@[simp] theorem State.setOutq_program (s : State) (q : List Word) : (s.setOutq q).program = s.program := rfl
@[simp] theorem State.setOutq_faultValid (s : State) (q : List Word) : (s.setOutq q).faultValid = s.faultValid := rfl
@[simp] theorem State.setOutq_faultCause (s : State) (q : List Word) : (s.setOutq q).faultCause = s.faultCause := rfl
@[simp] theorem State.setOutq_faultPc (s : State) (q : List Word) : (s.setOutq q).faultPc = s.faultPc := rfl
@[simp] theorem State.setOutq_faultInfo (s : State) (q : List Word) : (s.setOutq q).faultInfo = s.faultInfo := rfl
@[simp] theorem State.setOutq_scratch (s : State) (q : List Word) : (s.setOutq q).scratch = s.scratch := rfl

/-! ### setRunState -/

@[simp] theorem State.setRunState_mem (s : State) (r : RunState) : (s.setRunState r).mem = s.mem := rfl
@[simp] theorem State.setRunState_pc (s : State) (r : RunState) : (s.setRunState r).pc = s.pc := rfl
@[simp] theorem State.setRunState_rb (s : State) (r : RunState) : (s.setRunState r).rb = s.rb := rfl
@[simp] theorem State.setRunState_inq (s : State) (r : RunState) : (s.setRunState r).inq = s.inq := rfl
@[simp] theorem State.setRunState_outq (s : State) (r : RunState) : (s.setRunState r).outq = s.outq := rfl
@[simp] theorem State.setRunState_runState (s : State) (r : RunState) : (s.setRunState r).runState = r := rfl
@[simp] theorem State.setRunState_program (s : State) (r : RunState) : (s.setRunState r).program = s.program := rfl
@[simp] theorem State.setRunState_faultValid (s : State) (r : RunState) : (s.setRunState r).faultValid = s.faultValid := rfl
@[simp] theorem State.setRunState_faultCause (s : State) (r : RunState) : (s.setRunState r).faultCause = s.faultCause := rfl
@[simp] theorem State.setRunState_faultPc (s : State) (r : RunState) : (s.setRunState r).faultPc = s.faultPc := rfl
@[simp] theorem State.setRunState_faultInfo (s : State) (r : RunState) : (s.setRunState r).faultInfo = s.faultInfo := rfl
@[simp] theorem State.setRunState_scratch (s : State) (r : RunState) : (s.setRunState r).scratch = s.scratch := rfl

/-! ### latchDecode -/

@[simp] theorem State.latchDecode_mem (s : State) (op : Opcode) (m1 m2 m3 : Mode) :
    (s.latchDecode op m1 m2 m3).mem = s.mem := rfl
@[simp] theorem State.latchDecode_pc (s : State) (op : Opcode) (m1 m2 m3 : Mode) :
    (s.latchDecode op m1 m2 m3).pc = s.pc := rfl
@[simp] theorem State.latchDecode_rb (s : State) (op : Opcode) (m1 m2 m3 : Mode) :
    (s.latchDecode op m1 m2 m3).rb = s.rb := rfl
@[simp] theorem State.latchDecode_inq (s : State) (op : Opcode) (m1 m2 m3 : Mode) :
    (s.latchDecode op m1 m2 m3).inq = s.inq := rfl
@[simp] theorem State.latchDecode_outq (s : State) (op : Opcode) (m1 m2 m3 : Mode) :
    (s.latchDecode op m1 m2 m3).outq = s.outq := rfl
@[simp] theorem State.latchDecode_runState (s : State) (op : Opcode) (m1 m2 m3 : Mode) :
    (s.latchDecode op m1 m2 m3).runState = s.runState := rfl
@[simp] theorem State.latchDecode_program (s : State) (op : Opcode) (m1 m2 m3 : Mode) :
    (s.latchDecode op m1 m2 m3).program = s.program := rfl
@[simp] theorem State.latchDecode_faultValid (s : State) (op : Opcode) (m1 m2 m3 : Mode) :
    (s.latchDecode op m1 m2 m3).faultValid = s.faultValid := rfl
@[simp] theorem State.latchDecode_faultCause (s : State) (op : Opcode) (m1 m2 m3 : Mode) :
    (s.latchDecode op m1 m2 m3).faultCause = s.faultCause := rfl
@[simp] theorem State.latchDecode_faultPc (s : State) (op : Opcode) (m1 m2 m3 : Mode) :
    (s.latchDecode op m1 m2 m3).faultPc = s.faultPc := rfl
@[simp] theorem State.latchDecode_faultInfo (s : State) (op : Opcode) (m1 m2 m3 : Mode) :
    (s.latchDecode op m1 m2 m3).faultInfo = s.faultInfo := rfl
@[simp] theorem State.latchDecode_oa (s : State) (op : Opcode) (m1 m2 m3 : Mode) (k : Param) :
    (s.latchDecode op m1 m2 m3).scratch.oa k = s.scratch.oa k := by cases k <;> rfl
@[simp] theorem State.latchDecode_mode (s : State) (op : Opcode) (m1 m2 m3 : Mode) (k : Param) :
    (s.latchDecode op m1 m2 m3).scratch.mode k = (op.instr m1 m2 m3).mode k := by
  cases op <;> cases k <;> rfl

/-! ### setOa -/

@[simp] theorem State.setOa_mem (s : State) (k : Param) (ea : Word) :
    (s.setOa k ea).mem = s.mem := by cases k <;> rfl
@[simp] theorem State.setOa_pc (s : State) (k : Param) (ea : Word) :
    (s.setOa k ea).pc = s.pc := by cases k <;> rfl
@[simp] theorem State.setOa_rb (s : State) (k : Param) (ea : Word) :
    (s.setOa k ea).rb = s.rb := by cases k <;> rfl
@[simp] theorem State.setOa_inq (s : State) (k : Param) (ea : Word) :
    (s.setOa k ea).inq = s.inq := by cases k <;> rfl
@[simp] theorem State.setOa_outq (s : State) (k : Param) (ea : Word) :
    (s.setOa k ea).outq = s.outq := by cases k <;> rfl
@[simp] theorem State.setOa_runState (s : State) (k : Param) (ea : Word) :
    (s.setOa k ea).runState = s.runState := by cases k <;> rfl
@[simp] theorem State.setOa_program (s : State) (k : Param) (ea : Word) :
    (s.setOa k ea).program = s.program := by cases k <;> rfl
@[simp] theorem State.setOa_faultValid (s : State) (k : Param) (ea : Word) :
    (s.setOa k ea).faultValid = s.faultValid := by cases k <;> rfl
@[simp] theorem State.setOa_faultCause (s : State) (k : Param) (ea : Word) :
    (s.setOa k ea).faultCause = s.faultCause := by cases k <;> rfl
@[simp] theorem State.setOa_faultPc (s : State) (k : Param) (ea : Word) :
    (s.setOa k ea).faultPc = s.faultPc := by cases k <;> rfl
@[simp] theorem State.setOa_faultInfo (s : State) (k : Param) (ea : Word) :
    (s.setOa k ea).faultInfo = s.faultInfo := by cases k <;> rfl
@[simp] theorem State.setOa_oa_self (s : State) (k : Param) (ea : Word) :
    (s.setOa k ea).scratch.oa k = ea := by cases k <;> rfl
theorem State.setOa_oa_of_ne (s : State) (k j : Param) (ea : Word) (h : j ≠ k) :
    (s.setOa k ea).scratch.oa j = s.scratch.oa j := by
  cases k <;> cases j <;> first | rfl | exact absurd rfl h
@[simp] theorem State.setOa_mode (s : State) (k j : Param) (ea : Word) :
    (s.setOa k ea).scratch.mode j = s.scratch.mode j := by cases k <;> cases j <;> rfl

/-! ### takeFault -/

@[simp] theorem takeFault_mem (pc0 : Word) (r : Raised) :
    (takeFault pc0 r).mem = r.state.mem := rfl
@[simp] theorem takeFault_pc (pc0 : Word) (r : Raised) :
    (takeFault pc0 r).pc = r.state.pc := rfl
@[simp] theorem takeFault_rb (pc0 : Word) (r : Raised) :
    (takeFault pc0 r).rb = r.state.rb := rfl
@[simp] theorem takeFault_inq (pc0 : Word) (r : Raised) :
    (takeFault pc0 r).inq = r.state.inq := rfl
@[simp] theorem takeFault_outq (pc0 : Word) (r : Raised) :
    (takeFault pc0 r).outq = r.state.outq := rfl
@[simp] theorem takeFault_runState (pc0 : Word) (r : Raised) :
    (takeFault pc0 r).runState = r.state.runState := rfl
@[simp] theorem takeFault_program (pc0 : Word) (r : Raised) :
    (takeFault pc0 r).program = r.state.program := rfl
@[simp] theorem takeFault_faultValid (pc0 : Word) (r : Raised) :
    (takeFault pc0 r).faultValid = true := rfl
@[simp] theorem takeFault_faultCause (pc0 : Word) (r : Raised) :
    (takeFault pc0 r).faultCause = r.cause := rfl
@[simp] theorem takeFault_faultPc (pc0 : Word) (r : Raised) :
    (takeFault pc0 r).faultPc = pc0 := rfl
@[simp] theorem takeFault_faultInfo (pc0 : Word) (r : Raised) :
    (takeFault pc0 r).faultInfo = r.info := rfl
@[simp] theorem takeFault_scratch (pc0 : Word) (r : Raised) :
    (takeFault pc0 r).scratch = r.state.scratch := rfl

/-! ### restart -/

@[simp] theorem State.restart_mem (s : State) : s.restart.mem = Memory.seed s.program := rfl
@[simp] theorem State.restart_pc (s : State) : s.restart.pc = 0 := rfl
@[simp] theorem State.restart_rb (s : State) : s.restart.rb = 0 := rfl
@[simp] theorem State.restart_inq (s : State) : s.restart.inq = [] := rfl
@[simp] theorem State.restart_outq (s : State) : s.restart.outq = [] := rfl
@[simp] theorem State.restart_runState (s : State) : s.restart.runState = .running := rfl
@[simp] theorem State.restart_program (s : State) : s.restart.program = s.program := rfl
@[simp] theorem State.restart_faultValid (s : State) : s.restart.faultValid = false := rfl
@[simp] theorem State.restart_faultCause (s : State) : s.restart.faultCause = .invalidOpcode := rfl
@[simp] theorem State.restart_faultPc (s : State) : s.restart.faultPc = Config.resetLatchWord := rfl
@[simp] theorem State.restart_faultInfo (s : State) : s.restart.faultInfo = Config.resetLatchWord := rfl
@[simp] theorem State.restart_scratch (s : State) : s.restart.scratch = Scratch.reset := rfl

/-! ### Raising -/

@[simp] theorem State.raiseAddress_state (s : State) (ea : Word) : (s.raiseAddress ea).state = s := rfl
@[simp] theorem State.raiseAddress_cause (s : State) (ea : Word) :
    (s.raiseAddress ea).cause = .invalidAddress := rfl
@[simp] theorem State.raiseAddress_info (s : State) (ea : Word) : (s.raiseAddress ea).info = ea := rfl
@[simp] theorem State.raiseOverflow_state (s : State) (k : OverflowKind) :
    (s.raiseOverflow k).state = s := rfl
@[simp] theorem State.raiseOverflow_cause (s : State) (k : OverflowKind) :
    (s.raiseOverflow k).cause = .arithmeticOverflow := rfl
@[simp] theorem State.raiseOverflow_info (s : State) (k : OverflowKind) :
    (s.raiseOverflow k).info.toInt = k.code := by cases k <;> rfl
@[simp] theorem State.raiseDecode_state (s : State) (w : Word) (e : DecodeError) :
    (s.raiseDecode w e).state = s := by cases e <;> rfl
@[simp] theorem State.raiseDecode_info (s : State) (w : Word) (e : DecodeError) :
    (s.raiseDecode w e).info = w := by cases e <;> rfl

/-! ### The bind of a cycle's steps -/

@[simp] theorem except_ok_bind {α β : Type} (a : α) (f : α → Except Raised β) :
    (Except.ok a >>= f) = f a := rfl
@[simp] theorem except_error_bind {α β : Type} (r : Raised) (f : α → Except Raised β) :
    ((Except.error r : Except Raised α) >>= f) = Except.error r := rfl

/-- A sequence of steps that succeeds: the first one succeeded, and the rest succeeded after it. -/
theorem bind_eq_ok {α β : Type} {x : Except Raised α} {f : α → Except Raised β} {b : β}
    (h : (x >>= f) = .ok b) : ∃ a, x = .ok a ∧ f a = .ok b := by
  cases x with
  | error r => cases h
  | ok a => exact ⟨a, rfl, h⟩

/-- A sequence of steps that raises: the first one raised, or it succeeded and the rest raised. -/
theorem bind_eq_error {α β : Type} {x : Except Raised α} {f : α → Except Raised β} {r : Raised}
    (h : (x >>= f) = .error r) : x = .error r ∨ ∃ a, x = .ok a ∧ f a = .error r := by
  cases x with
  | error r' => cases h; exact .inl rfl
  | ok a => exact .inr ⟨a, rfl, h⟩

end Sys2Proof.Machine
end

