-- ==== Sys2Proof/Laws/Words.lean ====
section
/-!
SUPPORT. The words: their range, the word of a value, and `fit64`.
-/

namespace Sys2Proof

theorem intMin_le_toInt (w : Word) : intMin ≤ w.toInt := by
  have := BitVec.le_toInt w
  simp only [intMin]; omega

theorem toInt_le_intMax (w : Word) : w.toInt ≤ intMax := by
  have := BitVec.toInt_lt (x := w)
  simp only [intMax]; omega

/-- A value that fits is the value of its word. -/
theorem wordOf_toInt {v : Int} (h : Machine.fits v) : (wordOf v).toInt = v := by
  obtain ⟨h1, h2⟩ := h
  simp only [intMin, intMax] at h1 h2
  simp only [wordOf, BitVec.toInt_ofInt, Int.bmod]
  omega

@[simp] theorem wordOf_self (w : Word) : wordOf w.toInt = w := BitVec.ofInt_toInt

theorem toInt_injective {v w : Word} (h : v.toInt = w.toInt) : v = w := BitVec.eq_of_toInt_eq h

/-- A value that is not negative is the word's unsigned reading, the key of a memory cell. -/
theorem toNat_eq_toInt {w : Word} (h : 0 ≤ w.toInt) : (w.toNat : Int) = w.toInt := by
  rw [BitVec.toInt_eq_toNat_cond] at h ⊢
  have := w.isLt
  split at h <;> split <;> omega

theorem toNat_toInt {w : Word} (h : 0 ≤ w.toInt) : w.toInt.toNat = w.toNat := by
  have := toNat_eq_toInt h
  omega

/-- The key of a memory cell lies in the address space. -/
theorem toNat_lt_addressLimit {w : Word} (h : 0 ≤ w.toInt) : w.toNat < Config.addressLimit := by
  have := toNat_eq_toInt h
  have := toInt_le_intMax w
  simp only [intMax, Config.addressLimit] at *
  omega

namespace Machine

theorem fit64_of_fits {v : Int} (h : fits v) : fit64 v = some (wordOf v) := if_pos h

theorem fit64_of_not_fits {v : Int} (h : ¬ fits v) : fit64 v = none := if_neg h

theorem fits_toInt (w : Word) : fits w.toInt := ⟨intMin_le_toInt w, toInt_le_intMax w⟩

/-- The number LT writes. -/
theorem lessThanWord_toInt (x y : Word) :
    (lessThanWord x y).toInt = if x.toInt < y.toInt then 1 else 0 := by
  by_cases h : x.toInt < y.toInt
  · rw [lessThanWord, if_pos h, if_pos h]; rfl
  · rw [lessThanWord, if_neg h, if_neg h]; rfl

/-- The number EQ writes. -/
theorem equalWord_toInt (x y : Word) :
    (equalWord x y).toInt = if x.toInt = y.toInt then 1 else 0 := by
  by_cases h : x.toInt = y.toInt
  · rw [equalWord, if_pos h, if_pos h]; rfl
  · rw [equalWord, if_neg h, if_neg h]; rfl

end Machine

end Sys2Proof
end

