-- ==== Sys2Proof/Laws/Memory.lean ====
section
/-!
SUPPORT. Memory: a read after a write (spec/20_memory.md rule R55), the seeded memory (rules R51, R52), and the
canonical form, which every operation keeps.
-/

namespace Sys2Proof.Machine

/-! ### Reads -/

@[simp] theorem Memory.read_nil (a : Nat) : Memory.read [] a = 0 := rfl

theorem Memory.read_cons (k : Nat) (v : Word) (m : Memory) (a : Nat) :
    Memory.read ((k, v) :: m) a = if k = a then v else Memory.read m a := rfl

theorem Memory.read_erase (m : Memory) (a b : Nat) :
    (m.erase a).read b = if b = a then 0 else m.read b := by
  induction m with
  | nil => simp [Memory.erase]
  | cons x m ih =>
    obtain ⟨k, v⟩ := x
    by_cases hk : k = a
    · subst hk
      simp only [Memory.erase, ne_eq, not_true_eq_false, decide_false, List.filter_cons_of_neg,
        Bool.false_eq_true, not_false_eq_true] at ih ⊢
      rw [ih, Memory.read_cons]
      split <;> rename_i h <;> simp_all [eq_comm]
    · simp only [Memory.erase, ne_eq, hk, not_false_eq_true, decide_true, List.filter_cons_of_pos]
        at ih ⊢
      rw [Memory.read_cons, Memory.read_cons, ih]
      by_cases hb : k = b
      · subst hb; simp [hk]
      · simp [hb]

theorem Memory.read_insert (m : Memory) (a : Nat) (v : Word) (b : Nat)
    (hne : ∀ x ∈ m, x.1 ≠ a) : (m.insert a v).read b = if b = a then v else m.read b := by
  induction m with
  | nil => simp [Memory.insert, Memory.read_cons, eq_comm]
  | cons x m ih =>
    obtain ⟨k, w⟩ := x
    have hk : k ≠ a := hne (k, w) (by simp)
    have ih := ih (fun x hx => hne x (by simp [hx]))
    simp only [Memory.insert]
    split
    · rw [Memory.read_cons]; simp [eq_comm]
    · rw [Memory.read_cons, Memory.read_cons, ih]
      by_cases hb : k = b
      · subst hb; simp [hk]
      · simp [hb]

/-- Read after write: the written word at its address, every other word as before. -/
theorem Memory.read_write (m : Memory) (a : Nat) (v : Word) (b : Nat) :
    (m.write a v).read b = if b = a then v else m.read b := by
  by_cases h : v = 0
  · subst h; exact Memory.read_erase m a b
  · rw [Memory.write, if_neg h, Memory.read_insert _ _ _ _
      (by intro x hx; simpa [Memory.erase] using (List.mem_filter.mp hx).2), Memory.read_erase]
    split <;> rfl

@[simp] theorem Memory.read_write_self (m : Memory) (a : Nat) (v : Word) :
    (m.write a v).read a = v := by simp [Memory.read_write]

theorem Memory.read_write_of_ne (m : Memory) {a b : Nat} (v : Word) (h : b ≠ a) :
    (m.write a v).read b = m.read b := by simp [Memory.read_write, h]

/-- The seeded memory: word `i` of the list at address `a + i`, and 0 at every other address. -/
theorem Memory.read_seedFrom (vs : List Word) (a b : Nat) (hb : b < Config.addressLimit) :
    (Memory.seedFrom a vs).read b = if a ≤ b then vs.getD (b - a) 0 else 0 := by
  induction vs generalizing a with
  | nil => simp [Memory.seedFrom]
  | cons v vs ih =>
    have tail : ∀ c, c = a + 1 → (Memory.seedFrom c vs).read b =
        if a + 1 ≤ b then vs.getD (b - (a + 1)) 0 else 0 := by rintro c rfl; exact ih (a + 1)
    have shift : a + 1 ≤ b → (v :: vs).getD (b - a) 0 = vs.getD (b - (a + 1)) 0 := by
      intro h
      obtain ⟨d, rfl⟩ : ∃ d, b = a + 1 + d := ⟨b - (a + 1), by omega⟩
      rw [show a + 1 + d - a = d + 1 by omega, show a + 1 + d - (a + 1) = d by omega,
        List.getD_cons_succ]
    by_cases h : v = 0 ∨ Config.addressLimit ≤ a
    · rw [Memory.seedFrom, if_pos h, tail _ rfl]
      by_cases h1 : a + 1 ≤ b
      · rw [if_pos h1, if_pos (by omega), shift h1]
      · rw [if_neg h1]
        by_cases h2 : a ≤ b
        · obtain rfl : a = b := by omega
          rcases h with h | h
          · simp [h]
          · omega
        · rw [if_neg h2]
    · rw [Memory.seedFrom, if_neg h, Memory.read_cons]
      by_cases h0 : a = b
      · subst h0; simp
      · rw [if_neg h0, tail _ rfl]
        by_cases h1 : a + 1 ≤ b
        · rw [if_pos h1, if_pos (by omega), shift h1]
        · rw [if_neg h1, if_neg (by omega)]

theorem Memory.read_seed (program : List Word) (a : Nat) (h : a < Config.addressLimit) :
    (Memory.seed program).read a = program.getD a 0 := by
  simp [Memory.seed, Memory.read_seedFrom _ _ _ h]

/-! ### The canonical form -/

theorem Memory.wf_nil : Memory.wf [] := ⟨.nil, by simp⟩

theorem Memory.wf_erase {m : Memory} (h : m.wf) (a : Nat) : (m.erase a).wf :=
  ⟨h.1.filter _, fun x hx => h.2 x (List.mem_filter.mp hx).1⟩

theorem Memory.mem_insert {m : Memory} {a : Nat} {v : Word} {x : Cell} (h : x ∈ m.insert a v) :
    x = (a, v) ∨ x ∈ m := by
  induction m with
  | nil => simpa [Memory.insert] using h
  | cons y m ih =>
    obtain ⟨k, w⟩ := y
    simp only [Memory.insert] at h
    split at h
    · simpa using h
    · rcases List.mem_cons.mp h with h | h
      · exact .inr (by simp [h])
      · rcases ih h with h | h
        · exact .inl h
        · exact .inr (by simp [h])

theorem Memory.wf_insert {m : Memory} (h : m.wf) {a : Nat} {v : Word} (hv : v ≠ 0)
    (ha : a < Config.addressLimit) (hne : ∀ x ∈ m, x.1 ≠ a) : (m.insert a v).wf := by
  refine ⟨?_, fun x hx => ?_⟩
  · have hp := h.1
    clear h
    induction m with
    | nil => simp [Memory.insert]
    | cons y m ih =>
      obtain ⟨k, w⟩ := y
      obtain ⟨hk, hm⟩ := List.pairwise_cons.mp hp
      simp only [Memory.insert]
      split
      · rename_i hak
        refine List.pairwise_cons.mpr ⟨fun x hx => ?_, hp⟩
        rcases List.mem_cons.mp hx with rfl | hx
        · exact hak
        · exact Nat.lt_trans hak (hk x hx)
      · rename_i hak
        have hka : k ≠ a := hne (k, w) (by simp)
        refine List.pairwise_cons.mpr ⟨fun x hx => ?_, ih (fun x hx => hne x (by simp [hx])) hm⟩
        rcases Memory.mem_insert hx with rfl | hx
        · simp only; omega
        · exact hk x hx
  · rcases Memory.mem_insert hx with rfl | hx
    · exact ⟨hv, ha⟩
    · exact h.2 x hx

/-- A write at an address of the address space keeps the canonical form. -/
theorem Memory.wf_write {m : Memory} (h : m.wf) {a : Nat} (ha : a < Config.addressLimit) (v : Word) :
    (m.write a v).wf := by
  simp only [Memory.write]
  split
  · exact Memory.wf_erase h a
  · exact Memory.wf_insert (Memory.wf_erase h a) ‹_› ha
      (by intro x hx; simpa [Memory.erase] using (List.mem_filter.mp hx).2)

theorem Memory.wf_seedFrom (vs : List Word) (a : Nat) :
    (Memory.seedFrom a vs).wf ∧ ∀ x ∈ Memory.seedFrom a vs, a ≤ x.1 := by
  induction vs generalizing a with
  | nil => exact ⟨Memory.wf_nil, by simp [Memory.seedFrom]⟩
  | cons v vs ih =>
    obtain ⟨hw, hge⟩ := ih (a + 1)
    simp only [Memory.seedFrom]
    split
    · exact ⟨hw, fun x hx => Nat.le_of_succ_le (hge x hx)⟩
    · rename_i h
      obtain ⟨hv, hl⟩ := not_or.mp h
      refine ⟨⟨List.pairwise_cons.mpr ⟨fun x hx => hge x hx, hw.1⟩, fun x hx => ?_⟩, fun x hx => ?_⟩
      · rcases List.mem_cons.mp hx with rfl | hx
        · exact ⟨hv, Nat.lt_of_not_le hl⟩
        · exact hw.2 x hx
      · rcases List.mem_cons.mp hx with rfl | hx
        · exact Nat.le_refl a
        · exact Nat.le_of_succ_le (hge x hx)

/-- The seeded memory is in canonical form, whatever the Program. -/
theorem Memory.wf_seed (program : List Word) : (Memory.seed program).wf :=
  (Memory.wf_seedFrom program 0).1

theorem Memory.wf_writeWords {m : Memory} (h : m.wf) (vs : List Word) (a : Nat) :
    (m.writeWords a vs).wf := by
  induction vs generalizing a m with
  | nil => exact h
  | cons v vs ih =>
    refine ih ?_ (a + 1)
    split
    · exact Memory.wf_write h ‹_› v
    · exact h

/-- Words placed from address `a` upward leave every lower address alone. -/
theorem Memory.read_writeWords_below (m : Memory) (vs : List Word) (a b : Nat) (h : b < a) :
    (m.writeWords a vs).read b = m.read b := by
  induction vs generalizing a m with
  | nil => rfl
  | cons v vs ih =>
    rw [Memory.writeWords, ih _ _ (Nat.lt_succ_of_lt h)]
    split
    · exact Memory.read_write_of_ne _ _ (Nat.ne_of_lt h)
    · rfl

/-- The first of the placed words is at address `a`. -/
theorem Memory.read_writeWords_first (m : Memory) (v : Word) (vs : List Word) (a : Nat)
    (h : a < Config.addressLimit) : (m.writeWords a (v :: vs)).read a = v := by
  rw [Memory.writeWords, Memory.read_writeWords_below _ _ _ _ (Nat.lt_succ_self a), if_pos h]
  exact Memory.read_write_self m a v

end Sys2Proof.Machine
end

