-- ==== Sys2Proof/Laws/Cycle.lean ====
section
/-!
SUPPORT. What the common steps of a cycle can do (spec/40_cycle_and_operands.md rules R112 to R127), said once:
how far resolution gets, what it leaves, and what it raises. Provers cite `reach`, `prepare_ok`,
`prepare_error` and `exec_eq` instead of unfolding `prepare`.
-/

namespace Sys2Proof

theorem Param.mem_first_three (k : Param) : k ∈ Param.first 3 := by cases k <;> decide

/-- Parameter number `n + 1`. -/
def Param.nth : Nat → Param
  | 0 => .one
  | 1 => .two
  | _ => .three

theorem Param.nth_offset {n : Nat} (h : n < 3) : (Param.nth n).offset = n + 1 := by
  match n, h with
  | 0, _ | 1, _ | 2, _ => rfl

theorem Param.mem_first_succ {n : Nat} (h : n < 3) (k : Param) :
    k ∈ Param.first (n + 1) ↔ k ∈ Param.first n ∨ k = Param.nth n := by
  match n, h with
  | 0, _ | 1, _ | 2, _ => cases k <;> decide

theorem Param.drop_first {p n : Nat} (hp : p ≤ 3) (h : n < p) :
    (Param.first p).drop n = Param.nth n :: (Param.first p).drop (n + 1) := by
  match p, hp, n, h with
  | 1, _, 0, _ | 2, _, 0, _ | 2, _, 1, _ | 3, _, 0, _ | 3, _, 1, _ | 3, _, 2, _ => rfl

theorem Param.drop_first_self {p : Nat} (hp : p ≤ 3) : (Param.first p).drop p = [] := by
  match p, hp with
  | 0, _ | 1, _ | 2, _ | 3, _ => rfl

/-- Parameter `k` is among the first `n` exactly when it stands at most `n` words after the instruction
word. -/
theorem Param.mem_first {n : Nat} (h : n ≤ 3) (k : Param) : k ∈ Param.first n ↔ k.offset ≤ n := by
  match n, h with
  | 0, _ | 1, _ | 2, _ | 3, _ => cases k <;> decide

theorem Param.offset_pos (k : Param) : 1 ≤ k.offset := by cases k <;> decide

theorem Param.offset_le (k : Param) : k.offset ≤ 3 := by cases k <;> decide

theorem Param.nth_pred_offset (k : Param) : Param.nth (k.offset - 1) = k := by cases k <;> rfl

theorem Instr.paramCount_le (i : Instr) : i.paramCount ≤ 3 := by
  cases i <;> simp [Instr.paramCount, Instr.opcode, Opcode.format, Format.params]

namespace Machine

/-! ### Only PC and the scratch pad differ -/

/-- `t` differs from `s` in PC and the scratch pad alone. -/
def State.movedTo (s t : State) : Prop := t = { s with pc := t.pc, scratch := t.scratch }

theorem State.movedTo.refl (s : State) : s.movedTo s := rfl

theorem State.movedTo.trans {s t u : State} (h1 : s.movedTo t) (h2 : t.movedTo u) : s.movedTo u := by
  unfold State.movedTo at *; rw [h2, h1]

theorem State.movedTo.mem {s t : State} (h : s.movedTo t) : t.mem = s.mem := by rw [h]
theorem State.movedTo.rb {s t : State} (h : s.movedTo t) : t.rb = s.rb := by rw [h]
theorem State.movedTo.inq {s t : State} (h : s.movedTo t) : t.inq = s.inq := by rw [h]
theorem State.movedTo.outq {s t : State} (h : s.movedTo t) : t.outq = s.outq := by rw [h]
theorem State.movedTo.runState {s t : State} (h : s.movedTo t) : t.runState = s.runState := by rw [h]
theorem State.movedTo.program {s t : State} (h : s.movedTo t) : t.program = s.program := by rw [h]
theorem State.movedTo.faultValid {s t : State} (h : s.movedTo t) : t.faultValid = s.faultValid := by
  rw [h]
theorem State.movedTo.keepsLatch {s t : State} (h : s.movedTo t) : s.keepsLatch t := by
  rw [h]; exact ⟨rfl, rfl, rfl, rfl⟩

theorem State.movedTo_setPc (s : State) (v : Word) : s.movedTo (s.setPc v) := rfl
theorem State.movedTo_setOa (s : State) (k : Param) (v : Word) : s.movedTo (s.setOa k v) := by
  cases k <;> rfl
theorem State.movedTo_latchDecode (s : State) (op : Opcode) (m1 m2 m3 : Mode) :
    s.movedTo (s.latchDecode op m1 m2 m3) := rfl

/-! ### The primitives -/

theorem State.memRead_of_nonneg (s : State) {a : Word} (h : 0 ≤ a.toInt) :
    s.memRead a = .ok (s.mem.read a.toNat) := if_neg (by omega)

theorem State.memRead_of_neg (s : State) {a : Word} (h : a.toInt < 0) :
    s.memRead a = .error (s.raiseAddress a) := if_pos h

theorem State.memWrite_of_nonneg (s : State) {a : Word} (v : Word) (h : 0 ≤ a.toInt) :
    s.memWrite a v = .ok (s.setMem (s.mem.write a.toNat v)) := if_neg (by omega)

theorem State.memWrite_of_neg (s : State) {a : Word} (v : Word) (h : a.toInt < 0) :
    s.memWrite a v = .error (s.raiseAddress a) := if_pos h

theorem State.fitOrRaise_of_fits (s : State) (k : OverflowKind) {v : Int} (h : fits v) :
    s.fitOrRaise k v = .ok (wordOf v) := by simp [State.fitOrRaise, fit64_of_fits h]

theorem State.fitOrRaise_of_not_fits (s : State) (k : OverflowKind) {v : Int} (h : ¬ fits v) :
    s.fitOrRaise k v = .error (s.raiseOverflow k) := by
  simp [State.fitOrRaise, fit64_of_not_fits h]

/-- An increment of PC succeeds below `INT_MAX`. -/
theorem State.advancePc_of_room (s : State) (h : s.pc.toInt + 1 ≤ intMax) :
    s.advancePc = .ok (s.setPc (wordOf (s.pc.toInt + 1))) := by
  have hf : fits (s.pc.toInt + 1) := ⟨by have := intMin_le_toInt s.pc; omega, h⟩
  simp [State.advancePc, State.fitOrRaise_of_fits _ _ hf]

/-- An increment of PC at `INT_MAX` raises overflow kind 5. -/
theorem State.advancePc_of_top (s : State) (h : ¬ s.pc.toInt + 1 ≤ intMax) :
    s.advancePc = .error (s.raiseOverflow .pc) := by
  simp [State.advancePc, State.fitOrRaise_of_not_fits _ _ (fun hf => h hf.2)]

theorem State.advancePc_ok {s t : State} (h : s.advancePc = .ok t) :
    s.pc.toInt + 1 ≤ intMax ∧ t = s.setPc (wordOf (s.pc.toInt + 1)) := by
  by_cases hp : s.pc.toInt + 1 ≤ intMax
  · rw [s.advancePc_of_room hp] at h; cases h; exact ⟨hp, rfl⟩
  · rw [s.advancePc_of_top hp] at h; cases h

theorem State.advancePc_error {s : State} {r : Raised} (h : s.advancePc = .error r) :
    r = s.raiseOverflow .pc := by
  by_cases hp : s.pc.toInt + 1 ≤ intMax
  · rw [s.advancePc_of_room hp] at h; cases h
  · rw [s.advancePc_of_top hp] at h; cases h; rfl

theorem wordOf_succ_toInt {w : Word} (h : w.toInt + 1 ≤ intMax) :
    (wordOf (w.toInt + 1)).toInt = w.toInt + 1 :=
  wordOf_toInt ⟨by have := intMin_le_toInt w; omega, h⟩

/-! ### One parameter -/

/-- The exact address a parameter resolves to in the very state its resolution begins in. -/
def State.addressHere (u : State) (k : Param) (kind : ParamKind) : Int :=
  exactAddress kind (u.scratch.mode k) (u.mem.read u.pc.toNat).toInt u.pc.toInt u.rb.toInt

/-- The address is at least `INT_MIN` unless it is a relative sum. -/
theorem State.addressHere_fits (u : State) (k : Param) (kind : ParamKind)
    (h : u.scratch.mode k ≠ .relative) : fits (u.addressHere k kind) := by
  unfold State.addressHere
  cases hm : u.scratch.mode k <;> cases kind <;>
    first | exact fits_toInt _ | exact absurd hm h

theorem State.resolveParam_of_good (u : State) (k : Param) (kind : ParamKind) (hp : 0 ≤ u.pc.toInt)
    (h0 : 0 ≤ u.addressHere k kind) (h1 : u.addressHere k kind ≤ intMax) :
    u.resolveParam k kind = (u.setOa k (wordOf (u.addressHere k kind))).advancePc := by
  have hf : fits (u.addressHere k kind) := ⟨by simp only [intMin]; omega, h1⟩
  have hc : u.checkAddress (wordOf (u.addressHere k kind)) = .ok (wordOf (u.addressHere k kind)) :=
    if_neg (by rw [wordOf_toInt hf]; omega)
  have hr : u.resolveAddress kind (u.scratch.mode k) (u.mem.read u.pc.toNat) =
      .ok (wordOf (u.addressHere k kind)) := u.fitOrRaise_of_fits .address hf
  simp only [State.resolveParam, u.memRead_of_nonneg hp, except_ok_bind, hr, hc]

theorem State.resolveParam_of_overflow (u : State) (k : Param) (kind : ParamKind)
    (hp : 0 ≤ u.pc.toInt) (h : ¬ fits (u.addressHere k kind)) :
    u.resolveParam k kind = .error (u.raiseOverflow .address) := by
  have hr : u.resolveAddress kind (u.scratch.mode k) (u.mem.read u.pc.toNat) =
      .error (u.raiseOverflow .address) := u.fitOrRaise_of_not_fits .address h
  simp only [State.resolveParam, u.memRead_of_nonneg hp, except_ok_bind, hr, except_error_bind]

theorem State.resolveParam_of_negative (u : State) (k : Param) (kind : ParamKind)
    (hp : 0 ≤ u.pc.toInt) (hf : fits (u.addressHere k kind)) (h : u.addressHere k kind < 0) :
    u.resolveParam k kind = .error (u.raiseAddress (wordOf (u.addressHere k kind))) := by
  have hc : u.checkAddress (wordOf (u.addressHere k kind)) =
      .error (u.raiseAddress (wordOf (u.addressHere k kind))) :=
    if_pos (by rw [wordOf_toInt hf]; omega)
  have hr : u.resolveAddress kind (u.scratch.mode k) (u.mem.read u.pc.toNat) =
      .ok (wordOf (u.addressHere k kind)) := u.fitOrRaise_of_fits .address hf
  simp only [State.resolveParam, u.memRead_of_nonneg hp, except_ok_bind, hr, hc, except_error_bind]

/-- What a parameter's resolution leaves when it succeeds. -/
theorem State.resolveParam_ok {u t : State} {k : Param} {kind : ParamKind}
    (h : u.resolveParam k kind = .ok t) :
    0 ≤ u.pc.toInt ∧ 0 ≤ u.addressHere k kind ∧ u.addressHere k kind ≤ intMax ∧
      u.pc.toInt + 1 ≤ intMax ∧
      t = (u.setOa k (wordOf (u.addressHere k kind))).setPc (wordOf (u.pc.toInt + 1)) := by
  by_cases hp : 0 ≤ u.pc.toInt
  · by_cases hf : fits (u.addressHere k kind)
    · by_cases h0 : 0 ≤ u.addressHere k kind
      · rw [u.resolveParam_of_good k kind hp h0 hf.2] at h
        obtain ⟨h1, h2⟩ := State.advancePc_ok h
        simp only [State.setOa_pc] at h1 h2
        exact ⟨hp, h0, hf.2, h1, h2⟩
      · rw [u.resolveParam_of_negative k kind hp hf (by omega)] at h; cases h
    · rw [u.resolveParam_of_overflow k kind hp hf] at h; cases h
  · simp only [State.resolveParam, u.memRead_of_neg (Int.not_le.mp hp), except_error_bind] at h
    cases h

/-- A raise that a cycle may make from a state: only PC and the scratch pad have moved, operand addresses
are still not negative, and the information fits the cause. -/
structure Raised.soundFor (s : State) (r : Raised) : Prop where
  moved : s.movedTo r.state
  addresses : (∀ k, 0 ≤ (s.scratch.oa k).toInt) → ∀ k, 0 ≤ (r.state.scratch.oa k).toInt
  explained : r.cause.explains r.info

theorem State.raiseOverflow_sound (s : State) (k : OverflowKind) : (s.raiseOverflow k).soundFor s :=
  ⟨.refl s, id, by
    show 1 ≤ (s.raiseOverflow k).info.toInt ∧ (s.raiseOverflow k).info.toInt ≤ 5
    rw [State.raiseOverflow_info]; cases k <;> decide⟩

theorem State.raiseAddress_sound (s : State) {a : Word} (h : a.toInt < 0) :
    (s.raiseAddress a).soundFor s := ⟨.refl s, id, h⟩

theorem State.setOa_addresses {u : State} {k : Param} {v : Word} (hv : 0 ≤ v.toInt)
    (h : ∀ j, 0 ≤ (u.scratch.oa j).toInt) (j : Param) : 0 ≤ ((u.setOa k v).scratch.oa j).toInt := by
  by_cases hj : j = k
  · subst hj; rwa [State.setOa_oa_self]
  · rw [State.setOa_oa_of_ne _ _ _ _ hj]; exact h j

theorem Raised.soundFor.after {s u : State} {r : Raised} (h : r.soundFor u) (hm : s.movedTo u)
    (ha : (∀ k, 0 ≤ (s.scratch.oa k).toInt) → ∀ k, 0 ≤ (u.scratch.oa k).toInt) : r.soundFor s :=
  ⟨hm.trans h.moved, fun hs => h.addresses (ha hs), h.explained⟩

theorem State.resolveParam_error {u : State} {k : Param} {kind : ParamKind} {r : Raised}
    (h : u.resolveParam k kind = .error r) : r.soundFor u := by
  by_cases hp : 0 ≤ u.pc.toInt
  · by_cases hf : fits (u.addressHere k kind)
    · by_cases h0 : 0 ≤ u.addressHere k kind
      · rw [u.resolveParam_of_good k kind hp h0 hf.2] at h
        cases State.advancePc_error h
        exact (State.raiseOverflow_sound _ .pc).after (u.movedTo_setOa k _)
          (State.setOa_addresses (by rwa [wordOf_toInt hf]))
      · rw [u.resolveParam_of_negative k kind hp hf (by omega)] at h
        cases h
        exact u.raiseAddress_sound (by rw [wordOf_toInt hf]; omega)
    · rw [u.resolveParam_of_overflow k kind hp hf] at h
      cases h
      exact u.raiseOverflow_sound .address
  · have hn := Int.not_le.mp hp
    simp only [State.resolveParam, u.memRead_of_neg hn, except_error_bind] at h
    cases h
    exact u.raiseAddress_sound hn

/-! ### All parameters -/

/-- Resolve the listed parameters in turn. -/
def State.resolveList (f : Format) : List Param → State → Except Raised State
  | [], u => .ok u
  | k :: ks, u => u.resolveParam k (f.kind k) >>= State.resolveList f ks

theorem State.resolveAll_eq (u : State) (f : Format) :
    u.resolveAll f = State.resolveList f (Param.first f.params) u := by
  have unit : ∀ x : Except Raised State, (x >>= fun t => .ok t) = x := by intro x; cases x <;> rfl
  cases f
  · rfl
  · exact (unit _).symm
  · exact (unit _).symm
  · simp only [State.resolveAll, Format.params, Param.first, State.resolveList, unit, Format.kind]
  · simp only [State.resolveAll, Format.params, Param.first, State.resolveList, unit, Format.kind]

/-- The common steps of a cycle of `i`. -/
def State.prepareInstr (s : State) (i : Instr) : Except Raised State :=
  s.prepare i.opcode (i.mode .one) (i.mode .two) (i.mode .three)

/-- `u` is `s` after decode and the resolution of the first `n` parameters of `i`. -/
structure State.Progress (s : State) (i : Instr) (n : Nat) (u : State) : Prop where
  moved : s.movedTo u
  pc : u.pc.toInt = s.pc.toInt + n + 1
  mode : ∀ k, u.scratch.mode k = i.mode k
  resolved : ∀ k ∈ Param.first n,
    u.scratch.oa k = wordOf (s.paramAddress (i.kind k) (i.mode k) k) ∧ s.resolves i k
  untouched : ∀ k, k ∉ Param.first n → u.scratch.oa k = s.scratch.oa k

theorem State.Progress.addresses {s u : State} {i : Instr} {n : Nat} (h : s.Progress i n u)
    (hs : ∀ k, 0 ≤ (s.scratch.oa k).toInt) (k : Param) : 0 ≤ (u.scratch.oa k).toInt := by
  by_cases hk : k ∈ Param.first n
  · obtain ⟨h1, h2⟩ := h.resolved k hk
    rw [h1, wordOf_toInt ⟨by simp only [intMin]; omega, h2.2⟩]
    exact h2.1
  · rw [h.untouched k hk]; exact hs k

/-- The address of the next parameter, in terms of the state the cycle began in. -/
theorem State.Progress.addressHere {s u : State} {i : Instr} {n : Nat} (h : s.Progress i n u)
    (hn : n < 3) (hp : 0 ≤ u.pc.toInt) :
    u.addressHere (Param.nth n) (i.kind (Param.nth n)) =
      s.paramAddress (i.kind (Param.nth n)) (i.mode (Param.nth n)) (Param.nth n) := by
  have hoff := Param.nth_offset hn
  have hpc : u.pc.toInt = s.pc.toInt + (Param.nth n).offset := by rw [h.pc, hoff]; omega
  simp only [State.addressHere, State.paramAddress, State.paramWord, h.mode, h.moved.mem, h.moved.rb,
    ← hpc, toNat_toInt hp]

theorem State.latchDecode_instr_mode (s : State) (i : Instr) (k : Param) :
    (s.latchDecode i.opcode (i.mode .one) (i.mode .two) (i.mode .three)).scratch.mode k =
      i.mode k := by
  cases i <;> cases k <;> rfl

theorem State.Progress.start {s u : State} {i : Instr}
    (h : (s.latchDecode i.opcode (i.mode .one) (i.mode .two) (i.mode .three)).advancePc = .ok u) :
    s.Progress i 0 u := by
  obtain ⟨h1, rfl⟩ := State.advancePc_ok h
  simp only [State.latchDecode_pc] at h1
  refine ⟨(s.movedTo_latchDecode _ _ _ _).trans (State.movedTo_setPc _ _), ?_, ?_, ?_, ?_⟩
  · simp only [State.setPc_pc, State.latchDecode_pc, wordOf_succ_toInt h1]; simp
  · intro k; simp only [State.setPc_scratch]; exact s.latchDecode_instr_mode i k
  · intro k hk; cases hk
  · intro k _; simp only [State.setPc_scratch, State.latchDecode_oa]

theorem State.Progress.next {s u v : State} {i : Instr} {n : Nat} (h : s.Progress i n u) (hn : n < 3)
    (hv : u.resolveParam (Param.nth n) (i.kind (Param.nth n)) = .ok v) : s.Progress i (n + 1) v := by
  obtain ⟨hp, h0, h1, h2, rfl⟩ := State.resolveParam_ok hv
  have ha := h.addressHere hn hp
  refine ⟨h.moved.trans ((u.movedTo_setOa _ _).trans (State.movedTo_setPc _ _)), ?_, ?_, ?_, ?_⟩
  · rw [State.setPc_pc, wordOf_succ_toInt h2, h.pc]; push_cast; omega
  · intro k; simp only [State.setPc_scratch, State.setOa_mode, h.mode]
  · intro k hk
    simp only [State.setPc_scratch]
    rcases (Param.mem_first_succ hn k).mp hk with hk | rfl
    · have hne : k ≠ Param.nth n := by
        rintro rfl
        have := (Param.mem_first (by omega) _).mp hk
        rw [Param.nth_offset hn] at this
        omega
      rw [State.setOa_oa_of_ne _ _ _ _ hne]
      exact h.resolved k hk
    · rw [State.setOa_oa_self, ← ha]
      exact ⟨rfl, ha ▸ h0, ha ▸ h1⟩
  · intro k hk
    rw [Param.mem_first_succ hn, not_or] at hk
    simp only [State.setPc_scratch]
    rw [State.setOa_oa_of_ne _ _ _ _ hk.2]
    exact h.untouched k hk.1

theorem State.prepareInstr_eq (s : State) (i : Instr) :
    s.prepareInstr i =
      (s.latchDecode i.opcode (i.mode .one) (i.mode .two) (i.mode .three)).advancePc >>=
        State.resolveList i.opcode.format (Param.first i.paramCount) := by
  simp only [State.prepareInstr, State.prepare, State.resolveAll_eq, Instr.paramCount]

/-- Where the first `n` parameters resolve, the common steps get past them, and what is left of them is the
resolution of the rest. -/
theorem State.reach (s : State) (i : Instr) (n : Nat) (hn : n ≤ i.paramCount)
    (hroom : s.roomFor (n + 1)) (hres : ∀ k ∈ Param.first n, s.resolves i k) :
    ∃ u, s.Progress i n u ∧ s.prepareInstr i =
      State.resolveList i.opcode.format ((Param.first i.paramCount).drop n) u := by
  have hle := i.paramCount_le
  induction n with
  | zero =>
    have hp : (s.latchDecode i.opcode (i.mode .one) (i.mode .two) (i.mode .three)).pc.toInt + 1
        ≤ intMax := by
      have := hroom.2; simp only [State.latchDecode_pc]; omega
    have hu := State.advancePc_of_room _ hp
    exact ⟨_, State.Progress.start hu, by rw [State.prepareInstr_eq, hu]; rfl⟩
  | succ n ih =>
    have hr := hroom.2
    obtain ⟨u, hu, he⟩ := ih (by omega) ⟨hroom.1, by omega⟩
      (fun k hk => hres k ((Param.mem_first_succ (by omega) k).mpr (.inl hk)))
    have hp : 0 ≤ u.pc.toInt := by have := hroom.1; rw [hu.pc]; omega
    have ha := hu.addressHere (by omega) hp
    obtain ⟨h0, h1⟩ := hres (Param.nth n) ((Param.mem_first_succ (by omega) _).mpr (.inr rfl))
    rw [← ha] at h0 h1
    have hstep := u.resolveParam_of_good (Param.nth n) (i.kind (Param.nth n)) hp h0 h1
    have hpc := hu.pc
    rw [State.advancePc_of_room _ (by simp only [State.setOa_pc]; omega)] at hstep
    refine ⟨_, hu.next (by omega) hstep, ?_⟩
    rw [he, Param.drop_first hle (by omega)]
    simp only [State.resolveList]
    rw [show i.opcode.format.kind (Param.nth n) = i.kind (Param.nth n) from rfl, hstep]
    rfl

/-- Where everything resolves, the common steps succeed. -/
theorem State.prepare_ready (s : State) (i : Instr) (h : s.ready i) :
    ∃ u, s.prepareInstr i = .ok u ∧ s.Progress i i.paramCount u := by
  obtain ⟨u, hu, he⟩ := s.reach i i.paramCount (Nat.le_refl _) h.1 h.2
  rw [Param.drop_first_self i.paramCount_le] at he
  exact ⟨u, he, hu⟩

theorem State.resolveList_ok {s u t : State} {i : Instr} (d : Nat) : ∀ {n : Nat}, s.Progress i n u →
    n + d = i.paramCount →
    State.resolveList i.opcode.format ((Param.first i.paramCount).drop n) u = .ok t →
    s.Progress i i.paramCount t := by
  induction d generalizing u with
  | zero =>
    intro n hu hn h
    obtain rfl : n = i.paramCount := by omega
    rw [Param.drop_first_self i.paramCount_le] at h
    cases h; exact hu
  | succ d ih =>
    intro n hu hn h
    have hle := i.paramCount_le
    rw [Param.drop_first hle (by omega)] at h
    obtain ⟨v, hv, h⟩ := bind_eq_ok h
    exact ih (hu.next (by omega) hv) (by omega) h

theorem State.resolveList_error {s u : State} {i : Instr} {r : Raised} (d : Nat) : ∀ {n : Nat},
    s.Progress i n u → n + d = i.paramCount →
    State.resolveList i.opcode.format ((Param.first i.paramCount).drop n) u = .error r →
    r.soundFor s := by
  induction d generalizing u with
  | zero =>
    intro n hu hn h
    obtain rfl : n = i.paramCount := by omega
    rw [Param.drop_first_self i.paramCount_le] at h
    cases h
  | succ d ih =>
    intro n hu hn h
    have hle := i.paramCount_le
    rw [Param.drop_first hle (by omega)] at h
    rcases bind_eq_error h with h | ⟨v, hv, h⟩
    · exact (State.resolveParam_error h).after hu.moved hu.addresses
    · exact ih (hu.next (by omega) hv) (by omega) h

/-- The common steps that succeed have resolved every parameter. -/
theorem State.prepare_ok {s t : State} {i : Instr} (h : s.prepareInstr i = .ok t) :
    s.Progress i i.paramCount t := by
  rw [State.prepareInstr_eq] at h
  obtain ⟨u, hu, h⟩ := bind_eq_ok h
  exact State.resolveList_ok i.paramCount (State.Progress.start hu) (by omega) h

/-- The common steps that raise have moved PC and the scratch pad alone. -/
theorem State.prepare_error {s : State} {i : Instr} {r : Raised} (h : s.prepareInstr i = .error r) :
    r.soundFor s := by
  rw [State.prepareInstr_eq] at h
  rcases bind_eq_error h with h | ⟨u, hu, h⟩
  · cases State.advancePc_error h
    exact (State.raiseOverflow_sound _ .pc).after (s.movedTo_latchDecode _ _ _ _)
      (fun hs k => by rw [State.latchDecode_oa]; exact hs k)
  · exact State.resolveList_error i.paramCount (State.Progress.start hu) (by omega) h

/-! ### The execute step -/

/-- The execute step of each opcode (rule R128). -/
def executeStep : Opcode → State → Except Raised State
  | .add => fun t => t.binary (fun u x y => u.fitOrRaise .add (exactSum x y))
  | .mul => fun t => t.binary (fun u x y => u.fitOrRaise .mul (exactProduct x y))
  | .inp => takeInput
  | .out => giveOutput
  | .jt => fun t => t.jumpWhen (fun x => decide (nonZero x))
  | .jf => fun t => t.jumpWhen (fun x => decide (¬ nonZero x))
  | .lt => fun t => t.binary (fun _ x y => .ok (lessThanWord x y))
  | .eq => fun t => t.binary (fun _ x y => .ok (equalWord x y))
  | .arb => adjustBase
  | .hlt => fun t => .ok (t.setRunState .halted)

/-- Every instruction is the common steps, then its execute step, then the end of the cycle. -/
theorem exec_eq (i : Instr) (s : State) :
    exec i s = endCycle s.pc (s.prepareInstr i >>= executeStep i.opcode) := by
  cases i <;> rfl

/-- Every instruction answers a next state, on every path. -/
theorem endCycle_next (pc0 : Word) (x : Except Raised State) : ∃ t, endCycle pc0 x = .next t := by
  cases x <;> exact ⟨_, rfl⟩

/-- The value of a resolved read operand. -/
theorem State.Progress.operandAt {s u : State} {i : Instr} {n : Nat} (h : s.Progress i n u) {k : Param}
    (hk : k ∈ Param.first n) (hr : i.kind k = .read) :
    u.operandAt k = .ok (s.operandWord (i.mode k) k) := by
  obtain ⟨ho, h0, h1⟩ := h.resolved k hk
  rw [hr] at ho h0 h1
  have hw := wordOf_toInt (v := s.paramAddress .read (i.mode k) k) ⟨by simp only [intMin]; omega, h1⟩
  have hn : 0 ≤ (wordOf (s.paramAddress .read (i.mode k) k)).toInt := by rw [hw]; exact h0
  rw [State.operandAt, ho, u.memRead_of_nonneg hn, State.operandWord, h.moved.mem, ← toNat_toInt hn, hw]

/-- A store to a resolved write target. -/
theorem State.Progress.storeAt {s u : State} {i : Instr} {n : Nat} (h : s.Progress i n u) {k : Param}
    (hk : k ∈ Param.first n) (hr : i.kind k = .write) (u' : State) (hu : u'.scratch = u.scratch)
    (v : Word) :
    u'.storeAt k v =
      .ok (u'.setMem (u'.mem.write (s.paramAddress .write (i.mode k) k).toNat v)) := by
  obtain ⟨ho, h0, h1⟩ := h.resolved k hk
  rw [hr] at ho h0 h1
  have hw := wordOf_toInt (v := s.paramAddress .write (i.mode k) k) ⟨by simp only [intMin]; omega, h1⟩
  have hn : 0 ≤ (wordOf (s.paramAddress .write (i.mode k) k)).toInt := by rw [hw]; exact h0
  rw [State.storeAt, hu, ho, u'.memWrite_of_nonneg v hn, ← toNat_toInt hn, hw]

end Machine

end Sys2Proof
end

