-- ==== Sys2Proof/Laws/Step.lean ====
section
/-!
SUPPORT. What an execute step, `exec` and `step` can do, said once (spec/40_cycle_and_operands.md rule R131):
the inversion lemmas that claims about all instructions and all states are derived from.
-/

namespace Sys2Proof.Machine

/-! ### The execute steps -/

/-- A parameter that a format has, with its kind. -/
theorem format_param {i : Instr} {f : Format} (hf : i.opcode.format = f) (k : Param)
    (hk : k ∈ Param.first f.params) : k ∈ Param.first i.paramCount ∧ i.kind k = f.kind k := by
  subst hf; exact ⟨hk, rfl⟩

/-- A binary execute step reads both operands, computes, and stores at the write target. -/
theorem State.Progress.binary {s u : State} {i : Instr} (h : s.Progress i i.paramCount u)
    (hi : i.opcode.format = .p3w) (f : State → Word → Word → Except Raised Word) :
    u.binary f = f u (s.operandWord (i.mode .one) .one) (s.operandWord (i.mode .two) .two) >>=
      fun v => .ok (u.setMem (s.mem.write (s.paramAddress .write (i.mode .three) .three).toNat v)) := by
  obtain ⟨h1, k1⟩ := format_param hi .one (by decide)
  obtain ⟨h2, k2⟩ := format_param hi .two (by decide)
  obtain ⟨h3, k3⟩ := format_param hi .three (by decide)
  have store := fun v => h.storeAt h3 k3 u rfl v
  simp only [State.binary, h.operandAt h1 k1, h.operandAt h2 k2, except_ok_bind, store, h.moved.mem]

/-- A conditional jump reads the condition, and the target when the jump is taken. -/
theorem State.Progress.jumpWhen {s u : State} {i : Instr} (h : s.Progress i i.paramCount u)
    (hi : i.opcode.format = .p2r) (taken : Word → Bool) :
    u.jumpWhen taken = .ok (if taken (s.operandWord (i.mode .one) .one)
      then u.setPc (s.operandWord (i.mode .two) .two) else u) := by
  obtain ⟨h1, k1⟩ := format_param hi .one (by decide)
  obtain ⟨h2, k2⟩ := format_param hi .two (by decide)
  simp only [State.jumpWhen, h.operandAt h1 k1, h.operandAt h2 k2, except_ok_bind]
  split <;> rfl

/-- The step of IN, its queue empty or not. -/
theorem State.Progress.takeInput {s u : State} {m1 m2 m3 : Mode}
    (h : s.Progress (.inp m1 m2 m3) 1 u) :
    takeInput u = .ok (match s.inq with
      | [] => (u.setPc (u.pc - 2)).setRunState .waitingForInput
      | v :: rest => (u.setInq rest).setMem (s.mem.write (s.paramAddress .write m1 .one).toNat v)) := by
  have store := fun q v => h.storeAt (k := .one) (by decide) rfl (u.setInq q) rfl v
  unfold Machine.takeInput
  rw [h.moved.inq]
  cases s.inq with
  | nil => rfl
  | cons v rest => simp only [store, State.setInq_mem, h.moved.mem]; rfl

/-- The step of OUT. -/
theorem State.Progress.giveOutput {s u : State} {m1 m2 m3 : Mode}
    (h : s.Progress (.out m1 m2 m3) 1 u) :
    giveOutput u = .ok (u.setOutq (s.outq ++ [s.operandWord m1 .one])) := by
  have hx := h.operandAt (k := .one) (by decide) rfl
  simp only [Machine.giveOutput, hx, except_ok_bind, h.moved.outq]
  rfl

/-- The step of ARB. -/
theorem State.Progress.adjustBase {s u : State} {m1 m2 m3 : Mode}
    (h : s.Progress (.arb m1 m2 m3) 1 u) :
    adjustBase u = u.fitOrRaise .arb (exactSum s.rb (s.operandWord m1 .one)) >>=
      fun v => .ok (u.setRb v) := by
  have hx := h.operandAt (k := .one) (by decide) rfl
  simp only [Machine.adjustBase, hx, except_ok_bind, h.moved.rb]
  rfl

theorem State.fitOrRaise_error {s : State} {k : OverflowKind} {v : Int} {r : Raised}
    (h : s.fitOrRaise k v = .error r) : r = s.raiseOverflow k := by
  by_cases hf : fits v
  · rw [s.fitOrRaise_of_fits k hf] at h; cases h
  · rw [s.fitOrRaise_of_not_fits k hf] at h; cases h; rfl

/-- An execute step raises nothing but an overflow of its own, from the state it began in. -/
theorem executeStep_error {s u : State} {i : Instr} {r : Raised} (h : s.Progress i i.paramCount u)
    (he : executeStep i.opcode u = .error r) : ∃ k, r = u.raiseOverflow k := by
  have bin : ∀ (f : State → Word → Word → Except Raised Word), i.opcode.format = .p3w →
      u.binary f = .error r → ∃ x y, f u x y = .error r := by
    intro f hi hb
    rw [h.binary hi] at hb
    rcases bind_eq_error hb with hb | ⟨_, _, hb⟩
    · exact ⟨_, _, hb⟩
    · cases hb
  cases i with
  | add m1 m2 m3 =>
    obtain ⟨x, y, hx⟩ := bin (fun u x y => u.fitOrRaise .add (exactSum x y)) rfl he
    exact ⟨_, State.fitOrRaise_error hx⟩
  | mul m1 m2 m3 =>
    obtain ⟨x, y, hx⟩ := bin (fun u x y => u.fitOrRaise .mul (exactProduct x y)) rfl he
    exact ⟨_, State.fitOrRaise_error hx⟩
  | lt m1 m2 m3 =>
    obtain ⟨x, y, hx⟩ := bin (fun _ x y => .ok (lessThanWord x y)) rfl he
    cases hx
  | eq m1 m2 m3 =>
    obtain ⟨x, y, hx⟩ := bin (fun _ x y => .ok (equalWord x y)) rfl he
    cases hx
  | inp m1 m2 m3 => cases h.takeInput.symm.trans he
  | out m1 m2 m3 => cases h.giveOutput.symm.trans he
  | jt m1 m2 m3 => cases (h.jumpWhen rfl _).symm.trans he
  | jf m1 m2 m3 => cases (h.jumpWhen rfl _).symm.trans he
  | arb m1 m2 m3 =>
    rcases bind_eq_error (h.adjustBase.symm.trans he) with hb | ⟨_, _, hb⟩
    · exact ⟨_, State.fitOrRaise_error hb⟩
    · cases hb
  | hlt m1 m2 m3 => cases he

/-- What an execute step leaves when it succeeds: the one write of the cycle (rule R129), by instruction. -/
theorem executeStep_ok {s u t : State} {i : Instr} (h : s.Progress i i.paramCount u)
    (he : executeStep i.opcode u = .ok t) :
    (i.opcode.format = .p3w ∧ ∃ v,
        t = u.setMem (s.mem.write (s.paramAddress .write (i.mode .three) .three).toNat v)) ∨
      (∃ m1 m2 m3, i = .inp m1 m2 m3 ∧ s.inq = [] ∧
        t = (u.setPc (u.pc - 2)).setRunState .waitingForInput) ∨
      (∃ m1 m2 m3 v rest, i = .inp m1 m2 m3 ∧ s.inq = v :: rest ∧
        t = (u.setInq rest).setMem (s.mem.write (s.paramAddress .write m1 .one).toNat v)) ∨
      (∃ m1 m2 m3, i = .out m1 m2 m3 ∧ t = u.setOutq (s.outq ++ [s.operandWord m1 .one])) ∨
      (i.opcode.format = .p2r ∧ (t = u ∨ ∃ v, t = u.setPc v)) ∨
      (∃ m1 m2 m3, i = .arb m1 m2 m3 ∧ ∃ v, t = u.setRb v) ∨
      (∃ m1 m2 m3, i = .hlt m1 m2 m3 ∧ t = u.setRunState .halted) := by
  have bin : ∀ (f : State → Word → Word → Except Raised Word), i.opcode.format = .p3w →
      u.binary f = .ok t → ∃ v,
        t = u.setMem (s.mem.write (s.paramAddress .write (i.mode .three) .three).toNat v) := by
    intro f hi hb
    rw [h.binary hi] at hb
    obtain ⟨v, _, hb⟩ := bind_eq_ok hb
    cases hb
    exact ⟨v, rfl⟩
  have jump : ∀ taken : Word → Bool, i.opcode.format = .p2r → u.jumpWhen taken = .ok t →
      t = u ∨ ∃ v, t = u.setPc v := by
    intro taken hi hb
    rw [h.jumpWhen hi] at hb
    cases hb
    split
    · exact .inr ⟨_, rfl⟩
    · exact .inl rfl
  cases i with
  | add m1 m2 m3 => exact .inl ⟨rfl, bin (fun u x y => u.fitOrRaise .add (exactSum x y)) rfl he⟩
  | mul m1 m2 m3 => exact .inl ⟨rfl, bin (fun u x y => u.fitOrRaise .mul (exactProduct x y)) rfl he⟩
  | lt m1 m2 m3 => exact .inl ⟨rfl, bin (fun _ x y => .ok (lessThanWord x y)) rfl he⟩
  | eq m1 m2 m3 => exact .inl ⟨rfl, bin (fun _ x y => .ok (equalWord x y)) rfl he⟩
  | inp m1 m2 m3 =>
    have hb := h.takeInput.symm.trans he
    rcases hq : s.inq with _ | ⟨v, rest⟩
    · rw [hq] at hb; cases hb; exact .inr (.inl ⟨_, _, _, rfl, rfl, rfl⟩)
    · rw [hq] at hb; cases hb; exact .inr (.inr (.inl ⟨_, _, _, _, _, rfl, rfl, rfl⟩))
  | out m1 m2 m3 =>
    cases h.giveOutput.symm.trans he
    exact .inr (.inr (.inr (.inl ⟨_, _, _, rfl, rfl⟩)))
  | jt m1 m2 m3 => exact .inr (.inr (.inr (.inr (.inl ⟨rfl, jump _ rfl he⟩))))
  | jf m1 m2 m3 => exact .inr (.inr (.inr (.inr (.inl ⟨rfl, jump _ rfl he⟩))))
  | arb m1 m2 m3 =>
    obtain ⟨v, _, hb⟩ := bind_eq_ok (h.adjustBase.symm.trans he)
    cases hb
    exact .inr (.inr (.inr (.inr (.inr (.inl ⟨_, _, _, rfl, v, rfl⟩)))))
  | hlt m1 m2 m3 =>
    cases he
    exact .inr (.inr (.inr (.inr (.inr (.inr ⟨_, _, _, rfl, rfl⟩)))))

/-! ### One instruction -/

/-- What `exec` can do: a fault that moved PC and the scratch pad alone is taken, or every parameter was
resolved and the execute step left the next state. -/
theorem exec_cases {i : Instr} {s t : State} (h : exec i s = .next t) :
    (∃ r : Raised, r.soundFor s ∧ t = takeFault s.pc r) ∨
      ∃ u, s.Progress i i.paramCount u ∧ executeStep i.opcode u = .ok t := by
  rw [exec_eq] at h
  rcases hx : (s.prepareInstr i >>= executeStep i.opcode) with r | t'
  · rw [hx] at h
    cases h
    refine .inl ⟨r, ?_, rfl⟩
    rcases bind_eq_error hx with hx | ⟨u, hu, hx⟩
    · exact State.prepare_error hx
    · have hp := State.prepare_ok hu
      obtain ⟨k, rfl⟩ := executeStep_error hp hx
      exact (u.raiseOverflow_sound k).after hp.moved hp.addresses
  · rw [hx] at h
    cases h
    obtain ⟨u, hu, hx⟩ := bind_eq_ok hx
    exact .inr ⟨u, State.prepare_ok hu, hx⟩

/-- A ready instruction runs its execute step, and the cycle ends with it. -/
theorem exec_of_ready (s : State) (i : Instr) (h : s.ready i) :
    ∃ u, s.Progress i i.paramCount u ∧ exec i s = endCycle s.pc (executeStep i.opcode u) := by
  obtain ⟨u, hu, hp⟩ := s.prepare_ready i h
  exact ⟨u, hp, by rw [exec_eq, hu, except_ok_bind]⟩

/-- PC as a number after a ready instruction's common steps. -/
theorem State.Progress.pc_eq {s u : State} {i : Instr} {n : Nat} (h : s.Progress i n u) {v : Int}
    (hv : v = s.pc.toInt + n + 1) : u.pc.toInt = v := by rw [h.pc, hv]

/-- A fault taken from a state that only moved leaves what `faultedFrom` says. -/
theorem State.faultedFrom_takeFault {s : State} {r : Raised} (h : s.movedTo r.state) {info pc : Int}
    (hi : r.info.toInt = info) (hp : r.state.pc.toInt = pc) :
    s.faultedFrom (takeFault s.pc r) r.cause info pc :=
  ⟨rfl, rfl, rfl, hi, hp, fun a => by rw [takeFault_mem, h.mem], h.rb, h.inq, h.outq, h.runState,
    h.program⟩

/-! ### One step -/

theorem State.fetchDecode_of_nonneg (s : State) (h : 0 ≤ s.pc.toInt) :
    s.fetchDecode = match decode (s.mem.read s.pc.toNat) with
      | .ok i => .ok i
      | .error e => .error (s.raiseDecode (s.mem.read s.pc.toNat) e) := by
  cases hd : decode (s.mem.read s.pc.toNat) <;>
    simp only [State.fetchDecode, s.memRead_of_nonneg h, except_ok_bind, hd]

theorem State.fetchDecode_of_neg (s : State) (h : s.pc.toInt < 0) :
    s.fetchDecode = .error (s.raiseAddress s.pc) := by
  simp only [State.fetchDecode, s.memRead_of_neg h, except_error_bind]

theorem step_of_fetched {s : State} {i : Instr} (h : s.runnable) (hf : s.fetchDecode = .ok i) :
    step s = exec i s := by rw [step, if_pos h, hf]

theorem step_of_raised {s : State} {r : Raised} (h : s.runnable) (hf : s.fetchDecode = .error r) :
    step s = .next (takeFault s.pc r) := by rw [step, if_pos h, hf]; rfl

theorem step_of_not_runnable {s : State} (h : ¬ s.runnable) : step s = .fault .invalidState :=
  if_neg h

theorem raiseDecode_sound (s : State) {w : Word} {e : DecodeError} (h : decode w = .error e) :
    (s.raiseDecode w e).soundFor s := by
  cases e <;> exact ⟨.refl s, id, h⟩

/-- What a step can do: a runnable engine takes a fault that moved PC and the scratch pad alone, or all
parameters of the instruction at PC were resolved and its execute step left the next state. -/
theorem step_cases {s t : State} (h : step s = .next t) :
    s.runnable ∧ ((∃ r : Raised, r.soundFor s ∧ t = takeFault s.pc r) ∨
      ∃ i u, 0 ≤ s.pc.toInt ∧ decode (s.mem.read s.pc.toNat) = .ok i ∧ exec i s = .next t ∧
        s.Progress i i.paramCount u ∧ executeStep i.opcode u = .ok t) := by
  by_cases hr : s.runnable
  · refine ⟨hr, ?_⟩
    by_cases hp : 0 ≤ s.pc.toInt
    · have hf := s.fetchDecode_of_nonneg hp
      rcases hd : decode (s.mem.read s.pc.toNat) with e | i
      · rw [hd] at hf
        rw [step_of_raised hr hf] at h
        cases h
        exact .inl ⟨_, raiseDecode_sound s hd, rfl⟩
      · rw [hd] at hf
        rw [step_of_fetched hr hf] at h
        rcases exec_cases h with hx | ⟨u, hu, he⟩
        · exact .inl hx
        · exact .inr ⟨i, u, hp, rfl, h, hu, he⟩
    · have hn := Int.not_le.mp hp
      rw [step_of_raised hr (s.fetchDecode_of_neg hn)] at h
      cases h
      exact .inl ⟨_, s.raiseAddress_sound hn, rfl⟩
  · rw [step_of_not_runnable hr] at h; cases h

end Sys2Proof.Machine
end

