-- ==== Sys2Proof/Laws/Agreement.lean ====
section
/-!
SUPPORT. Cycles of two instructions that resolve their parameters alike, from two states that agree on all that
can be seen (`State.agrees`), end alike: `exec_agree`. It covers the registers the spec leaves unspecified, the
mode digits of parameters an opcode does not have (spec/30_encoding.md rule R94) and mode 1 on a write target
(rule R93).
-/

namespace Sys2Proof.Machine

/-! ### Agreement of states -/

theorem State.agrees.refl (s : State) : s.agrees s :=
  ⟨rfl, rfl, rfl, rfl, rfl, rfl, rfl, rfl, fun _ => ⟨rfl, rfl, rfl⟩⟩

theorem State.agrees.trans {s t u : State} (h : s.agrees t) (h' : t.agrees u) : s.agrees u := by
  obtain ⟨a1, a2, a3, a4, a5, a6, a7, a8, a9⟩ := h
  obtain ⟨b1, b2, b3, b4, b5, b6, b7, b8, b9⟩ := h'
  refine ⟨b1.trans a1, b2.trans a2, b3.trans a3, b4.trans a4, b5.trans a5, b6.trans a6, b7.trans a7,
    b8.trans a8, fun hf => ?_⟩
  obtain ⟨c1, c2, c3⟩ := a9 hf
  obtain ⟨d1, d2, d3⟩ := b9 (a8.trans hf)
  exact ⟨d1.trans c1, d2.trans c2, d3.trans c3⟩

theorem State.agrees.mem {s t : State} (h : s.agrees t) : t.mem = s.mem := h.1
theorem State.agrees.pc {s t : State} (h : s.agrees t) : t.pc = s.pc := h.2.1
theorem State.agrees.rb {s t : State} (h : s.agrees t) : t.rb = s.rb := h.2.2.1
theorem State.agrees.inq {s t : State} (h : s.agrees t) : t.inq = s.inq := h.2.2.2.1
theorem State.agrees.outq {s t : State} (h : s.agrees t) : t.outq = s.outq := h.2.2.2.2.1
theorem State.agrees.runState {s t : State} (h : s.agrees t) : t.runState = s.runState :=
  h.2.2.2.2.2.1
theorem State.agrees.faultValid {s t : State} (h : s.agrees t) : t.faultValid = s.faultValid :=
  h.2.2.2.2.2.2.2.1

theorem State.agrees.setPc {s t : State} (h : s.agrees t) (v : Word) :
    (s.setPc v).agrees (t.setPc v) := ⟨h.1, rfl, h.2.2⟩

theorem State.agrees.setRb {s t : State} (h : s.agrees t) (v : Word) :
    (s.setRb v).agrees (t.setRb v) := ⟨h.1, h.2.1, rfl, h.2.2.2⟩

theorem State.agrees.setMem {s t : State} (h : s.agrees t) (m : Memory) :
    (s.setMem m).agrees (t.setMem m) := ⟨rfl, h.2⟩

theorem State.agrees.setInq {s t : State} (h : s.agrees t) (q : List Word) :
    (s.setInq q).agrees (t.setInq q) := ⟨h.1, h.2.1, h.2.2.1, rfl, h.2.2.2.2⟩

theorem State.agrees.setOutq {s t : State} (h : s.agrees t) (q : List Word) :
    (s.setOutq q).agrees (t.setOutq q) := ⟨h.1, h.2.1, h.2.2.1, h.2.2.2.1, rfl, h.2.2.2.2.2⟩

theorem State.agrees.setRunState {s t : State} (h : s.agrees t) (r : RunState) :
    (s.setRunState r).agrees (t.setRunState r) :=
  ⟨h.1, h.2.1, h.2.2.1, h.2.2.2.1, h.2.2.2.2.1, rfl, h.2.2.2.2.2.2⟩

theorem State.agrees.setOa {s t : State} (h : s.agrees t) (k : Param) (v w : Word) :
    (s.setOa k v).agrees (t.setOa k w) := by cases k <;> exact h

theorem State.agrees.latchDecode {s t : State} (h : s.agrees t) (op op' : Opcode)
    (m1 m2 m3 n1 n2 n3 : Mode) :
    (s.latchDecode op m1 m2 m3).agrees (t.latchDecode op' n1 n2 n3) := h

/-! ### Agreement of results -/

/-- Two raises are alike. -/
def Raised.alike (r r' : Raised) : Prop :=
  r.cause = r'.cause ∧ r.info = r'.info ∧ r.state.agrees r'.state

/-- Two results of steps are alike: both raise alike, or both leave states related by `R`. -/
def alike (R : State → State → Prop) : Except Raised State → Except Raised State → Prop
  | .ok s, .ok t => R s t
  | .error r, .error r' => r.alike r'
  | _, _ => False

theorem alike_bind {R Q : State → State → Prop} {x y : Except Raised State}
    {f g : State → Except Raised State} (h : alike R x y)
    (hf : ∀ s t, R s t → alike Q (f s) (g t)) : alike Q (x >>= f) (y >>= g) := by
  cases x <;> cases y
  · exact h
  · exact h.elim
  · exact h.elim
  · exact hf _ _ h

theorem endCycle_agree {x y : Except Raised State} (h : alike State.agrees x y) (pc0 : Word) :
    outcomesAgree (endCycle pc0 x) (endCycle pc0 y) := by
  cases x <;> cases y
  · obtain ⟨h1, h2, a1, a2, a3, a4, a5, a6, a7, _⟩ := h
    exact ⟨a1, a2, a3, a4, a5, a6, a7, rfl, fun _ => ⟨h1.symm, rfl, h2.symm⟩⟩
  · exact h.elim
  · exact h.elim
  · exact h

/-! ### The common steps -/

/-- Parameter `k` resolves alike for both instructions. -/
def resolvesAlike (i j : Instr) (k : Param) : Prop :=
  i.kind k = j.kind k ∧ ∀ p pc rb : Int,
    exactAddress (i.kind k) (i.mode k) p pc rb = exactAddress (i.kind k) (j.mode k) p pc rb

/-- States in the course of a cycle of `i` and of `j`, with `n` parameters resolved alike. -/
def stagesAgree (i j : Instr) (n : Nat) (s t : State) : Prop :=
  s.agrees t ∧ (∀ k, s.scratch.mode k = i.mode k) ∧ (∀ k, t.scratch.mode k = j.mode k) ∧
    ∀ k ∈ Param.first n, s.scratch.oa k = t.scratch.oa k

theorem advancePc_alike {R : State → State → Prop} {s t : State} (h : s.agrees t)
    (hR : ∀ v, R (s.setPc v) (t.setPc v)) : alike R s.advancePc t.advancePc := by
  have hpc := h.pc
  by_cases hp : s.pc.toInt + 1 ≤ intMax
  · rw [s.advancePc_of_room hp, t.advancePc_of_room (by rw [hpc]; exact hp), hpc]; exact hR _
  · rw [s.advancePc_of_top hp, t.advancePc_of_top (by rw [hpc]; exact hp)]; exact ⟨rfl, rfl, h⟩

theorem resolveParam_alike {i j : Instr} {n : Nat} {s t : State} (hn : n < 3)
    (h : stagesAgree i j n s t) (hk : resolvesAlike i j (Param.nth n)) :
    alike (stagesAgree i j (n + 1)) (s.resolveParam (Param.nth n) (i.kind (Param.nth n)))
      (t.resolveParam (Param.nth n) (j.kind (Param.nth n))) := by
  obtain ⟨ha, hi, hj, ho⟩ := h
  have he : t.addressHere (Param.nth n) (j.kind (Param.nth n)) =
      s.addressHere (Param.nth n) (i.kind (Param.nth n)) := by
    simp only [State.addressHere, ha.mem, ha.pc, ha.rb, hi, hj, hk.2, ← hk.1]
  by_cases hp : 0 ≤ s.pc.toInt
  · have hp' : 0 ≤ t.pc.toInt := by rw [ha.pc]; exact hp
    by_cases hf : fits (s.addressHere (Param.nth n) (i.kind (Param.nth n)))
    · by_cases h0 : 0 ≤ s.addressHere (Param.nth n) (i.kind (Param.nth n))
      · rw [s.resolveParam_of_good _ _ hp h0 hf.2,
          t.resolveParam_of_good _ _ hp' (by rw [he]; exact h0) (by rw [he]; exact hf.2), he]
        refine advancePc_alike (ha.setOa _ _ _) fun v =>
          ⟨(ha.setOa _ _ _).setPc v, fun k => by simp [hi], fun k => by simp [hj], fun k hk => ?_⟩
        simp only [State.setPc_scratch]
        by_cases hkn : k = Param.nth n
        · subst hkn; simp
        · rw [State.setOa_oa_of_ne _ _ _ _ hkn, State.setOa_oa_of_ne _ _ _ _ hkn]
          exact ho k (((Param.mem_first_succ hn k).mp hk).resolve_right hkn)
      · rw [s.resolveParam_of_negative _ _ hp hf (by omega),
          t.resolveParam_of_negative _ _ hp' (by rw [he]; exact hf) (by rw [he]; omega), he]
        exact ⟨rfl, rfl, ha⟩
    · rw [s.resolveParam_of_overflow _ _ hp hf,
        t.resolveParam_of_overflow _ _ hp' (by rw [he]; exact hf)]
      exact ⟨rfl, rfl, ha⟩
  · have hneg := Int.not_le.mp hp
    have hneg' : t.pc.toInt < 0 := by rw [ha.pc]; exact hneg
    simp only [State.resolveParam, s.memRead_of_neg hneg, t.memRead_of_neg hneg', except_error_bind]
    exact ⟨rfl, by simp [ha.pc], ha⟩

theorem resolveList_alike {i j : Instr} (hk : ∀ k ∈ Param.first i.paramCount, resolvesAlike i j k)
    (d : Nat) : ∀ {n : Nat} {s t : State}, stagesAgree i j n s t → n + d = i.paramCount →
    alike (stagesAgree i j i.paramCount)
      (State.resolveList i.opcode.format ((Param.first i.paramCount).drop n) s)
      (State.resolveList i.opcode.format ((Param.first i.paramCount).drop n) t) := by
  induction d with
  | zero =>
    intro n s t h hn
    obtain rfl : n = i.paramCount := by omega
    rw [Param.drop_first_self i.paramCount_le]
    exact h
  | succ d ih =>
    intro n s t h hn
    have hle := i.paramCount_le
    have hlt : n < 3 := by omega
    have hkn := hk (Param.nth n)
      ((Param.mem_first hle _).mpr (by rw [Param.nth_offset hlt]; omega))
    have hone := resolveParam_alike hlt h hkn
    rw [show j.kind (Param.nth n) = i.opcode.format.kind (Param.nth n) from hkn.1.symm] at hone
    rw [Param.drop_first hle (by omega)]
    exact alike_bind (R := stagesAgree i j (n + 1)) hone (fun s t h => ih h (by omega))

theorem prepare_alike {i j : Instr} (hop : i.opcode = j.opcode)
    (hk : ∀ k ∈ Param.first i.paramCount, resolvesAlike i j k) {s t : State} (h : s.agrees t) :
    alike (stagesAgree i j i.paramCount) (s.prepareInstr i) (t.prepareInstr j) := by
  rw [State.prepareInstr_eq, State.prepareInstr_eq]
  refine alike_bind (R := stagesAgree i j 0) (advancePc_alike (h.latchDecode _ _ _ _ _ _ _ _) fun v => ?_)
    fun s t h => ?_
  · exact ⟨(h.latchDecode _ _ _ _ _ _ _ _).setPc v, s.latchDecode_instr_mode i,
      t.latchDecode_instr_mode j, fun k hk => by cases hk⟩
  · rw [show j.paramCount = i.paramCount by simp [Instr.paramCount, hop], ← hop]
    exact resolveList_alike hk i.paramCount (n := 0) h (by omega)

/-! ### The execute steps -/

theorem operandAt_alike {i j : Instr} {n : Nat} {s t : State} (h : stagesAgree i j n s t) {k : Param}
    (hk : k ∈ Param.first n) {f g : Word → Except Raised State}
    (hf : ∀ v, alike State.agrees (f v) (g v)) :
    alike State.agrees (s.operandAt k >>= f) (t.operandAt k >>= g) := by
  obtain ⟨ha, _, _, ho⟩ := h
  simp only [State.operandAt, ← ho k hk]
  by_cases hw : 0 ≤ (s.scratch.oa k).toInt
  · rw [s.memRead_of_nonneg hw, t.memRead_of_nonneg hw, ha.mem]; exact hf _
  · rw [s.memRead_of_neg (by omega), t.memRead_of_neg (by omega)]; exact ⟨rfl, rfl, ha⟩

theorem storeAt_alike {i j : Instr} {n : Nat} {s t : State} (h : stagesAgree i j n s t) {k : Param}
    (hk : k ∈ Param.first n) {s' t' : State} (ha : s'.agrees t') (hs : s'.scratch = s.scratch)
    (ht : t'.scratch = t.scratch) (v : Word) :
    alike State.agrees (s'.storeAt k v) (t'.storeAt k v) := by
  simp only [State.storeAt, hs, ht, ← h.2.2.2 k hk]
  by_cases hw : 0 ≤ (s.scratch.oa k).toInt
  · rw [s'.memWrite_of_nonneg v hw, t'.memWrite_of_nonneg v hw, ha.mem]; exact ha.setMem _
  · rw [s'.memWrite_of_neg v (by omega), t'.memWrite_of_neg v (by omega)]; exact ⟨rfl, rfl, ha⟩

theorem fitOrRaise_alike {s t : State} (h : s.agrees t) (k : OverflowKind) (v : Int)
    {f g : Word → Except Raised State} (hf : ∀ w, alike State.agrees (f w) (g w)) :
    alike State.agrees (s.fitOrRaise k v >>= f) (t.fitOrRaise k v >>= g) := by
  by_cases hv : fits v
  · rw [s.fitOrRaise_of_fits k hv, t.fitOrRaise_of_fits k hv]; exact hf _
  · rw [s.fitOrRaise_of_not_fits k hv, t.fitOrRaise_of_not_fits k hv]; exact ⟨rfl, rfl, h⟩

theorem executeStep_alike {i j : Instr} {s t : State} (h : stagesAgree i j i.paramCount s t) :
    alike State.agrees (executeStep i.opcode s) (executeStep i.opcode t) := by
  have ha := h.1
  have jump : ∀ taken : Word → Bool, i.opcode.format = .p2r →
      alike State.agrees (s.jumpWhen taken) (t.jumpWhen taken) := by
    intro taken hf
    refine operandAt_alike h (format_param hf .one (by decide)).1 fun v => ?_
    split
    · exact operandAt_alike h (format_param hf .two (by decide)).1 fun v => ha.setPc v
    · exact ha
  have bin : ∀ f : State → Word → Word → Except Raised Word,
      (∀ (x y : Word) (g g' : Word → Except Raised State), (∀ v, alike State.agrees (g v) (g' v)) →
        alike State.agrees (f s x y >>= g) (f t x y >>= g')) →
      i.opcode.format = .p3w → alike State.agrees (s.binary f) (t.binary f) := by
    intro f hg hf
    refine operandAt_alike h (format_param hf .one (by decide)).1 fun x => ?_
    refine operandAt_alike h (format_param hf .two (by decide)).1 fun y => ?_
    exact hg x y _ _ fun v => storeAt_alike h (format_param hf .three (by decide)).1 ha rfl rfl v
  cases i with
  | add m1 m2 m3 =>
    exact bin (fun u x y => u.fitOrRaise .add (exactSum x y))
      (fun x y g g' hg => fitOrRaise_alike ha _ _ hg) rfl
  | mul m1 m2 m3 =>
    exact bin (fun u x y => u.fitOrRaise .mul (exactProduct x y))
      (fun x y g g' hg => fitOrRaise_alike ha _ _ hg) rfl
  | lt m1 m2 m3 => exact bin (fun _ x y => .ok (lessThanWord x y)) (fun x y g g' hg => hg _) rfl
  | eq m1 m2 m3 => exact bin (fun _ x y => .ok (equalWord x y)) (fun x y g g' hg => hg _) rfl
  | jt m1 m2 m3 => exact jump _ rfl
  | jf m1 m2 m3 => exact jump _ rfl
  | inp m1 m2 m3 =>
    have hone := (format_param (i := .inp m1 m2 m3) (f := .p1w) rfl .one (by decide)).1
    simp only [Instr.opcode, executeStep, takeInput, ha.inq, ha.pc]
    cases s.inq with
    | nil => exact (ha.setPc _).setRunState _
    | cons v rest => exact storeAt_alike h hone (ha.setInq rest) rfl rfl v
  | out m1 m2 m3 =>
    refine operandAt_alike h (format_param (i := .out m1 m2 m3) (f := .p1r) rfl .one (by decide)).1
      fun v => ?_
    rw [ha.outq]; exact ha.setOutq _
  | arb m1 m2 m3 =>
    refine operandAt_alike h (format_param (i := .arb m1 m2 m3) (f := .p1r) rfl .one (by decide)).1
      fun v => ?_
    rw [ha.rb]
    exact fitOrRaise_alike ha _ _ fun w => ha.setRb w
  | hlt m1 m2 m3 => exact ha.setRunState _

/-- Two instructions of one opcode whose parameters resolve alike end alike from states that agree. -/
theorem exec_agree {i j : Instr} (hop : i.opcode = j.opcode)
    (hk : ∀ k ∈ Param.first i.paramCount, resolvesAlike i j k) {s t : State} (h : s.agrees t) :
    outcomesAgree (exec i s) (exec j t) := by
  rw [exec_eq, exec_eq, h.pc, ← hop]
  exact endCycle_agree (alike_bind (prepare_alike hop hk h) fun s t h => executeStep_alike h) _

end Sys2Proof.Machine
end

