-- ==== Sys2Proof/Laws/Decode.lean ====
section
/-!
SUPPORT. What the decoder's tables and the decoder can answer (spec/30_encoding.md rule R87).
-/

namespace Sys2Proof

theorem Opcode.code_of_ofCode {n : Nat} {op : Opcode} (h : Opcode.ofCode n = some op) :
    op.code = n := by
  unfold Opcode.ofCode at h
  split at h <;> cases h <;> rfl

@[simp] theorem Opcode.ofCode_code (op : Opcode) : Opcode.ofCode op.code = some op := by
  cases op <;> rfl

theorem Mode.digit_of_ofDigit {n : Nat} {m : Mode} (h : Mode.ofDigit n = some m) : m.digit = n := by
  unfold Mode.ofDigit at h
  split at h <;> cases h <;> rfl

@[simp] theorem Mode.ofDigit_digit (m : Mode) : Mode.ofDigit m.digit = some m := by cases m <;> rfl

theorem Mode.ofDigit_of_large {n : Nat} (h : 2 < n) : Mode.ofDigit n = none := by
  unfold Mode.ofDigit
  split <;> first | rfl | omega

theorem Opcode.ofCode_of_not_registered {n : Nat} (h : (n : Int) ∉ opcodeNumbers) :
    Opcode.ofCode n = none := by
  unfold Opcode.ofCode
  split <;> first | rfl | exact absurd (by decide) h

@[simp] theorem Opcode.instr_opcode (op : Opcode) (m1 m2 m3 : Mode) :
    (op.instr m1 m2 m3).opcode = op := by cases op <;> rfl

theorem Opcode.encode_instr (op : Opcode) (m1 m2 m3 : Mode) :
    encode (op.instr m1 m2 m3) = BitVec.ofNat 64 (instrNumber op m1 m2 m3) := by cases op <;> rfl

/-- What a word that decodes looks like: not negative, a short mode field, and the digits of its opcode and
modes. -/
theorem decode_ok {w : Word} {i : Instr} (h : decode w = .ok i) :
    0 ≤ w.toInt ∧ w.toNat / 100 ≤ 999 ∧ ∃ (op : Opcode) (m1 m2 m3 : Mode), i = op.instr m1 m2 m3 ∧
      op.code = w.toNat % 100 ∧ m1.digit = digit w.toNat 2 ∧ m2.digit = digit w.toNat 3 ∧
      m3.digit = digit w.toNat 4 := by
  unfold decode at h
  split at h
  · cases h
  split at h
  · cases h
  rename_i op ho
  split at h
  · cases h
  split at h
  · rename_i m1 m2 m3 h1 h2 h3
    cases h
    exact ⟨by omega, by omega, op, m1, m2, m3, rfl, Opcode.code_of_ofCode ho,
      Mode.digit_of_ofDigit h1, Mode.digit_of_ofDigit h2, Mode.digit_of_ofDigit h3⟩
  · cases h

end Sys2Proof
end

