-- ==== Sys2Proof/Laws/Host.lean ====
section
/-!
SUPPORT. What the cycle-starting commands can do (spec/47_host_commands.md rules R206 to R208, R211), and that
watching a command for longer changes no response.
-/

namespace Sys2Proof.Machine

/-- `cycle` rejects an engine that cannot run, and otherwise performs one step and reports. -/
theorem cycleCommand_cases (s : State) :
    (¬ s.runnable ∧ s.cycleCommand = some (.rejected .invalidState, s)) ∨
      (s.runnable ∧ ∃ t, step s = .next t ∧ s.cycleCommand = some (t.report, t)) := by
  by_cases h : s.runnable
  · have ⟨t, ht⟩ : ∃ t, step s = .next t := by
      rcases hf : s.fetchDecode with r | i
      · exact ⟨_, step_of_raised h hf⟩
      · rw [step_of_fetched h hf, exec_eq]; exact endCycle_next _ _
    exact .inr ⟨h, t, ht, by rw [State.cycleCommand, ht]⟩
  · exact .inl ⟨h, by rw [State.cycleCommand, step_of_not_runnable h]⟩

/-- A report says a fault, or a stop outside `Running`, or `Stopped(Running)` of an engine that can run on. -/
theorem report_cases (s : State) :
    (s.faultValid = true ∧ s.report = .faulted s.faultCause s.faultInfo) ∨
      (s.faultValid = false ∧ s.runState ≠ .running ∧ s.report = .stopped s.runState) ∨
      (s.runnable ∧ s.report = .stopped .running) := by
  unfold State.report
  cases hf : s.faultValid
  · by_cases hr : s.runState = .running
    · exact .inr (.inr ⟨⟨hr, hf⟩, by simp [hr]⟩)
    · exact .inr (.inl ⟨rfl, hr, by simp⟩)
  · exact .inl ⟨rfl, by simp⟩

/-- `run` goes on after `Stopped(Running)`. -/
theorem runWithin_of_running {s t : State} (n : Nat)
    (h : s.cycleCommand = some (.stopped .running, t)) :
    State.runWithin (n + 1) s = State.runWithin n t := by rw [State.runWithin, h]

/-- `run` comes back with every other answer of a cycle. -/
theorem runWithin_of_other {s t : State} {r : Response} (n : Nat) (h : s.cycleCommand = some (r, t))
    (hr : r ≠ .stopped .running) : State.runWithin (n + 1) s = some (r, t) := by
  rw [State.runWithin, h]
  split
  · rename_i h'; cases h'; exact absurd rfl hr
  · rfl

/-- A response does not change when the call is watched for longer. -/
theorem runWithin_mono {n : Nat} : ∀ {s : State} {x : Response × State} (k : Nat),
    State.runWithin n s = some x → State.runWithin (n + k) s = some x := by
  induction n with
  | zero => intro s x k h; cases h
  | succ n ih =>
    intro s x k h
    rw [Nat.succ_add]
    have ⟨r, t, hc⟩ : ∃ r t, s.cycleCommand = some (r, t) := by
      rcases cycleCommand_cases s with ⟨_, hc⟩ | ⟨_, t, _, hc⟩ <;> exact ⟨_, _, hc⟩
    by_cases hr : r = .stopped .running
    · subst hr
      rw [runWithin_of_running _ hc] at h ⊢
      exact ih k h
    · rw [runWithin_of_other _ hc hr] at h ⊢
      exact h

theorem command_mono {n : Nat} {c : Command} {s : State} {x : Response × State} (k : Nat)
    (h : s.command n c = some x) : s.command (n + k) c = some x := by
  cases c with
  | run => exact runWithin_mono k h
  | resume =>
    simp only [State.command, State.resumeWithin] at h ⊢
    split
    · rename_i hw; rw [if_pos hw] at h; exact runWithin_mono k h
    · rename_i hw; rw [if_neg hw] at h; exact h
  | _ => exact h

end Sys2Proof.Machine
end

