-- ==== Sys2Proof/Laws/PerInstr.lean ====
section
/-!
SUPPORT. Facts about every instruction as syntax, one lemma per constructor.
-/

/-- The word of the instruction is a legal instruction word (spec/30_encoding.md rule R89). -/
def Sys2Proof.Laws.LegalWord.Statement (i : Sys2Proof.Instr) : Prop :=
  Sys2Proof.WellFormed.legalWord (Sys2Proof.encode i) = true

namespace Sys2Proof.Laws.LegalWord

theorem add (m1 m2 m3 : Mode) : Statement (.add m1 m2 m3) := by cases m1 <;> cases m2 <;> cases m3 <;> rfl
theorem mul (m1 m2 m3 : Mode) : Statement (.mul m1 m2 m3) := by cases m1 <;> cases m2 <;> cases m3 <;> rfl
theorem inp (m1 m2 m3 : Mode) : Statement (.inp m1 m2 m3) := by cases m1 <;> cases m2 <;> cases m3 <;> rfl
theorem out (m1 m2 m3 : Mode) : Statement (.out m1 m2 m3) := by cases m1 <;> cases m2 <;> cases m3 <;> rfl
theorem jt (m1 m2 m3 : Mode) : Statement (.jt m1 m2 m3) := by cases m1 <;> cases m2 <;> cases m3 <;> rfl
theorem jf (m1 m2 m3 : Mode) : Statement (.jf m1 m2 m3) := by cases m1 <;> cases m2 <;> cases m3 <;> rfl
theorem lt (m1 m2 m3 : Mode) : Statement (.lt m1 m2 m3) := by cases m1 <;> cases m2 <;> cases m3 <;> rfl
theorem eq (m1 m2 m3 : Mode) : Statement (.eq m1 m2 m3) := by cases m1 <;> cases m2 <;> cases m3 <;> rfl
theorem arb (m1 m2 m3 : Mode) : Statement (.arb m1 m2 m3) := by cases m1 <;> cases m2 <;> cases m3 <;> rfl
theorem hlt (m1 m2 m3 : Mode) : Statement (.hlt m1 m2 m3) := by cases m1 <;> cases m2 <;> cases m3 <;> rfl

end Sys2Proof.Laws.LegalWord
end

