-- ==== Sys2Proof/Tests/Slice0.lean ====
section
/-!
SUPPORT. Tests and witnesses. Every expected result is a row of spec/95_test_vectors.md or a rule of spec/,
named in the test's comment. A witness shows concrete states and operands that meet the hypotheses of one
obligation.
-/

namespace Sys2Proof.Tests

-- Checked one after another: checking these many small theorems at once starts a thread for each.
set_option Elab.async false

open Sys2Proof.Machine

/-- The state after one step; the state itself where the step answers no next state. -/
def after (s : State) : State :=
  match step s with
  | .next t => t
  | _ => s

/-- A fresh instance with input pushed. -/
def withInput (program input : List Word) : State := { State.new program with inq := input }

/-- A fresh instance with a relative base. -/
def withBase (program : List Word) (rb : Word) : State := { State.new program with rb := rb }

/-- The largest word. -/
def top : Word := 9223372036854775807

/-- The smallest word. -/
def bottom : Word := -9223372036854775808

/-! ### Well-formed words: each check refuses a word the others accept (vectors E22, E18, E30, E29) -/

theorem test_wf_accepts_legal :
    WellFormed.legalWord 1 = true ∧ WellFormed.legalWord 22299 = true := by decide

theorem test_wf_refuses_negative : WellFormed.nonNegative (-1) = false ∧
    WellFormed.legalWord (-1) = false := by decide

theorem test_wf_refuses_unregistered_opcode : WellFormed.registeredOpcode 98 = false ∧
    WellFormed.registeredOpcode 0 = false ∧ WellFormed.legalWord 98 = false := by decide

theorem test_wf_refuses_long_mode_field : WellFormed.shortModeField 100001 = false ∧
    WellFormed.legalModeDigits 100001 = true ∧ WellFormed.legalWord 100001 = false := by decide

theorem test_wf_refuses_mode_digit : WellFormed.legalModeDigits 399 = false ∧
    WellFormed.legalModeDigits 3001 = false ∧ WellFormed.legalModeDigits 30001 = false ∧
    WellFormed.legalWord 399 = false := by decide

/-! ### Decoding: words written out digit by digit (rules R81, R88, R93, R94; vectors E1 to E32) -/

theorem test_decode_add : decode 1001 = .ok (.add .position .immediate .position) := rfl
theorem test_decode_mul : decode 12002 = .ok (.mul .position .relative .immediate) := rfl
theorem test_decode_in : decode 203 = .ok (.inp .relative .position .position) := rfl
theorem test_decode_out : decode 2104 = .ok (.out .immediate .relative .position) := rfl
theorem test_decode_jt : decode 20105 = .ok (.jt .immediate .position .relative) := rfl
theorem test_decode_jf : decode 2106 = .ok (.jf .immediate .relative .position) := rfl
theorem test_decode_lt : decode 20007 = .ok (.lt .position .position .relative) := rfl
theorem test_decode_eq : decode 22208 = .ok (.eq .relative .relative .relative) := rfl
theorem test_decode_arb : decode 109 = .ok (.arb .immediate .position .position) := rfl
theorem test_decode_hlt : decode 10099 = .ok (.hlt .position .position .immediate) := rfl

/-- Vectors E17, E18, E21, E22, E24. -/
theorem test_decode_refuses_opcode : decode 0 = .error .invalidOpcode ∧
    decode 55 = .error .invalidOpcode ∧ decode 377 = .error .invalidOpcode ∧
    decode (-1) = .error .invalidOpcode ∧ decode bottom = .error .invalidOpcode :=
  ⟨rfl, rfl, rfl, rfl, rfl⟩

/-- Vectors E25, E28, E29, E31, E32. -/
theorem test_decode_refuses_mode : decode 301 = .error .invalidParameterMode ∧
    decode 99999 = .error .invalidParameterMode ∧ decode 399 = .error .invalidParameterMode ∧
    decode 100099 = .error .invalidParameterMode ∧ decode top = .error .invalidParameterMode :=
  ⟨rfl, rfl, rfl, rfl, rfl⟩

theorem test_encode : encode (.add .immediate .immediate .relative) = 21101 ∧
    encode (.jf .immediate .relative .position) = 2106 ∧
    encode (.hlt .position .position .position) = 99 := by decide

/-- The written-out instructions of rule R97 and of spec/95_test_vectors.md P4. -/
theorem test_assemble :
    assemble (.add .position .immediate .relative) [9, -1, 3] = [21001, 9, -1, 3] ∧
      assemble (.jt .immediate .position .position) [1, 7] = [105, 1, 7] ∧
      assemble (.arb .immediate .position .position) [50] = [109, 50] := by decide

/-- A parameter word lies in bits 127..64 of a table number and takes no part in decoding (rule R87). -/
theorem test_decode_table_word : decodeTableWord 64 99 = some (.hlt .position .position .position) ∧
    decodeTableWord 128 (104 + 7 * 2 ^ 64) = some (.out .immediate .position .position) ∧
    decodeTableWord 64 98 = none := by decide +kernel

/-! ### One step per instruction -/

/-- S1. -/
theorem test_add_in_place : (after (State.new [1, 0, 0, 0, 99])).mem.read 0 = 2 ∧
    (after (State.new [1, 0, 0, 0, 99])).pc = 4 := by decide +kernel

/-- A2. -/
theorem test_add_overflow : (after (State.new [1101, top, 1, 5, 99, 7])).faultInfo = 1 ∧
    (after (State.new [1101, top, 1, 5, 99, 7])).mem.read 5 = 7 := by decide +kernel

/-- A17. -/
theorem test_mul_to_bottom :
    (after (State.new [1102, 4294967296, -2147483648, 5, 99, 7])).mem.read 5 = bottom := by
  decide +kernel

/-- A7. -/
theorem test_mul_overflow : (after (State.new [1102, bottom, -1, 5, 99, 7])).faultInfo = 2 ∧
    (after (State.new [1102, bottom, -1, 5, 99, 7])).pc = 4 := by decide +kernel

/-- M8, after its ARB: a relative write target over a used parameter word. -/
theorem test_in_relative :
    let s := after (after (withInput [109, 10, 203, -7, 99, 0] [9]))
    s.mem.read 3 = 9 ∧ s.inq = [] ∧ s.pc = 4 := by decide +kernel

/-- I2 and I4: an empty queue waits, but a negative target faults first. -/
theorem test_in_waits_or_faults :
    (after (State.new [3, 0, 4, 0, 99])).runState = .waitingForInput ∧
      (after (State.new [3, 0, 4, 0, 99])).pc = 0 ∧
      (after (State.new [3, -1, 99])).runState = .running ∧
      (after (State.new [3, -1, 99])).faultInfo = -1 ∧ (after (State.new [3, -1, 99])).pc = 1 := by
  decide +kernel

/-- M1 and M2. -/
theorem test_out_modes : (after (State.new [4, 3, 99, 70])).outq = [70] ∧
    (after (State.new [104, 3, 99, 70])).outq = [3] := by decide +kernel

/-- M10. -/
theorem test_out_relative_negative : (after (State.new [204, -1, 99])).faultCause = .invalidAddress ∧
    (after (State.new [204, -1, 99])).pc = 1 := by decide +kernel

/-- J5 and J2. -/
theorem test_jt : (after (State.new [5, 7, 8, 99, 104, 5, 99, -3, 4])).pc = 4 ∧
    (after (State.new [1105, 0, 4, 99, 104, 5, 99])).pc = 3 := by decide +kernel

/-- J7: a negative target faults at the next fetch. -/
theorem test_jt_negative_target : (after (State.new [1105, 1, -1])).pc = -1 ∧
    (after (State.new [1105, 1, -1])).faultValid = false ∧
    (after (after (State.new [1105, 1, -1]))).faultPc = -1 := by decide +kernel

/-- J3 and J4. -/
theorem test_jf : (after (State.new [1106, 0, 4, 99, 104, 5, 99])).pc = 4 ∧
    (after (State.new [1106, 1, 4, 99, 104, 5, 99])).pc = 3 := by decide +kernel

/-- CMP4 and CMP7. -/
theorem test_lt_signed : (after (State.new [1107, -1, 0, 5, 99, 7])).mem.read 5 = 1 ∧
    (after (State.new [1107, top, bottom, 5, 99, 7])).mem.read 5 = 0 := by decide +kernel

/-- CMP8: the comparison is strict. -/
theorem test_lt_strict : (after (State.new [7, 4, 4, 0, 99])).mem.read 0 = 0 := by decide +kernel

/-- CMP3 and CMP1. -/
theorem test_eq : (after (State.new [1108, 2, 2, 5, 99, 7])).mem.read 5 = 1 ∧
    (after (State.new [1108, 1, 2, 5, 99, 7])).mem.read 5 = 0 := by decide +kernel

/-- B3: the operand is resolved with the old base. -/
theorem test_arb_old_base : (after (after (State.new [109, 5, 209, 0, 99, 33]))).rb = 38 := by
  decide +kernel

/-- B5. -/
theorem test_arb_overflow :
    let s := after (after (State.new [109, top, 109, 1, 99]))
    s.faultInfo = 3 ∧ s.rb = top ∧ s.pc = 4 ∧ s.faultPc = 2 := by decide +kernel

/-- H1 and E9. -/
theorem test_hlt : (after (State.new [99])).runState = .halted ∧ (after (State.new [99])).pc = 1 ∧
    (after (State.new [2299])).runState = .halted := by decide +kernel

/-- H4: a HLT at the top of the address space faults. -/
theorem test_hlt_at_top :
    let s := after (after (after (State.new [1101, 99, 0, top, 1105, 1, top])))
    s.faultInfo = 5 ∧ s.pc = top ∧ s.faultPc = top ∧ s.runState = .running := by decide +kernel

/-- H2: the empty Program. -/
theorem test_reset_fetches_zero : (after State.reset).faultCause = .invalidOpcode ∧
    (after State.reset).faultInfo = 0 ∧ (after State.reset).pc = 0 := by decide +kernel

/-- B8: the overflow of a relative address is seen before its sign. -/
theorem test_relative_overflow :
    (after (withBase [204, -1, 99] bottom)).faultInfo = 4 ∧
      (after (withBase [204, -1, 99] bottom)).pc = 1 := by decide +kernel

/-- A placed word is fetched by the next step (log entry 6). -/
theorem test_placed_word :
    (after (State.reset.withFetchWord 128 (104 + 7 * 2 ^ 64))).outq = [7] := by decide +kernel

/-! ### Host commands (vectors S2, K5, K6, K8, K1, P7) -/

/-- S2: 3 cycles. -/
theorem test_run_to_halt :
    ((State.runWithin 3 (State.new [1, 9, 10, 3, 2, 3, 11, 0, 99, 30, 40, 50])).map
      (fun x => (x.1, x.2.mem.read 0))) = some (.stopped .halted, 3500) := by decide +kernel

/-- K5, its rejections. -/
theorem test_waiting_rejects_run :
    (after (State.new [3, 0, 4, 0, 99])).command 1 .run =
      some (.rejected .invalidState, after (State.new [3, 0, 4, 0, 99])) := by decide +kernel

/-- K6. -/
theorem test_fault_latch :
    ((State.runWithin 3 (State.new [104, 1, 104, 2, 55, 104, 3])).map
      (fun x => (x.1, x.2.readFault, x.2.outq))) =
      some (.faulted .invalidOpcode 55, .latch (some (.invalidOpcode, 4, 55)), [1, 2]) := by
  decide +kernel

/-- K8. -/
theorem test_peek_negative : (State.new [99]).command 0 (.peek (-1)) =
    some (.rejected .invalidAddress, State.new [99]) := by decide

/-- K1: reset re-seeds memory and forgets the input. -/
theorem test_reset_reseeds : (after (withInput [3, 0, 99] [7, 8])).restart = State.new [3, 0, 99] := by
  decide +kernel

/-- P7, round 1: what A put out is what B is given. -/
theorem test_transfer :
    let b := Instances.transfer [{ State.new [99] with outq := [1, 2] }, withInput [99] [0]] 0 1
    b.map (fun s => (s.outq, s.inq)) = [([], []), ([], [0, 1, 2])] := by decide

/-! ### Witnesses: encoding -/

/-- A negative word, and non-negative words at both sides of the registered opcodes. -/
theorem witness_UnregisteredOpcodeIsLatched :
    ((State.new [-1]).runnable ∧ 0 ≤ (State.new [-1]).pc.toInt ∧ (State.new [-1]).mem.read 0 = -1 ∧
      (-1 : Word).toInt < 0) ∧
    ((State.new [0]).runnable ∧ (State.new [0]).mem.read 0 = 0 ∧
      (0 : Word).toInt % 100 ∉ opcodeNumbers) ∧
    ((State.new [98]).runnable ∧ (State.new [98]).mem.read 0 = 98 ∧
      (98 : Word).toInt % 100 ∉ opcodeNumbers) := by decide +kernel

/-- One word for each way a mode field is illegal. -/
theorem witness_IllegalModeFieldIsLatched :
    ((State.new [100001]).runnable ∧ 0 ≤ (State.new [100001]).pc.toInt ∧
      (State.new [100001]).mem.read 0 = 100001 ∧ 0 ≤ (100001 : Word).toInt ∧
      (100001 : Word).toInt % 100 ∈ opcodeNumbers ∧ 999 < (100001 : Word).toInt / 100) ∧
    ((399 : Word).toInt % 100 ∈ opcodeNumbers ∧ 2 < (399 : Word).toInt / 100 % 10) ∧
    ((3001 : Word).toInt % 100 ∈ opcodeNumbers ∧ 2 < (3001 : Word).toInt / 1000 % 10) ∧
    ((30001 : Word).toInt % 100 ∈ opcodeNumbers ∧ 2 < (30001 : Word).toInt / 10000 % 10) := by
  decide +kernel

/-! ### Witnesses: the cycle -/

theorem witness_StepRunsTheDecodedInstruction :
    (State.new [1101, 100, -1, 4, 0]).runnable ∧ 0 ≤ (State.new [1101, 100, -1, 4, 0]).pc.toInt ∧
      decode ((State.new [1101, 100, -1, 4, 0]).mem.read 0) =
        .ok (.add .immediate .immediate .position) :=
  ⟨by decide, by decide, rfl⟩

theorem witness_NegativePcFaultsAtFetch :
    (State.reset.setPc (-1)).runnable ∧ (State.reset.setPc (-1)).pc.toInt < 0 := by decide

theorem witness_NoCycleStartsUnlessRunnable :
    (State.reset.setRunState .waitingForInput).runState ≠ .running ∧
      (State.reset.setRunState .halted).runState ≠ .running ∧
      (after State.reset).faultValid = true := by decide +kernel

theorem witness_EveryStartedCycleAnswersNext : State.reset.runnable := by decide

/-! ### Witnesses: ADD, MUL, LT, EQ -/

/-- An ordinary sum, and one at the top of the range (A1). -/
theorem witness_AddStoresTheExactSum :
    let s := State.new [1101, top, 0, 5, 99, 0]
    s.ready (.add .immediate .immediate .position) ∧
      fits ((s.operandWord .immediate .one).toInt + (s.operandWord .immediate .two).toInt) ∧
      (5 : Int) = s.paramAddress .write .position .three := by decide +kernel

/-- One beyond each end of the range (A2, A3). -/
theorem witness_AddOverflowIsLatched :
    let s := State.new [1101, top, 1, 5, 99, 7]
    let t := State.new [1101, bottom, -1, 5, 99, 7]
    (s.ready (.add .immediate .immediate .position) ∧
      ¬ fits ((s.operandWord .immediate .one).toInt + (s.operandWord .immediate .two).toInt)) ∧
    (t.ready (.add .immediate .immediate .position) ∧
      ¬ fits ((t.operandWord .immediate .one).toInt + (t.operandWord .immediate .two).toInt)) := by
  decide +kernel

/-- A17. -/
theorem witness_MulStoresTheExactProduct :
    let s := State.new [1102, 4294967296, -2147483648, 5, 99, 7]
    s.ready (.mul .immediate .immediate .position) ∧
      fits ((s.operandWord .immediate .one).toInt * (s.operandWord .immediate .two).toInt) ∧
      (5 : Int) = s.paramAddress .write .position .three := by decide +kernel

/-- A16. -/
theorem witness_MulOverflowIsLatched :
    let s := State.new [1102, 4294967296, 2147483648, 5, 99, 7]
    s.ready (.mul .immediate .immediate .position) ∧
      ¬ fits ((s.operandWord .immediate .one).toInt * (s.operandWord .immediate .two).toInt) := by
  decide +kernel

/-- Both outcomes of the comparison (CMP6, CMP7). -/
theorem witness_LtStoresTheSignedComparison :
    let s := State.new [1107, bottom, top, 5, 99, 7]
    let t := State.new [1107, top, bottom, 5, 99, 7]
    (s.ready (.lt .immediate .immediate .position) ∧
      (s.operandWord .immediate .one).toInt < (s.operandWord .immediate .two).toInt ∧
      (5 : Int) = s.paramAddress .write .position .three) ∧
    (t.ready (.lt .immediate .immediate .position) ∧
      ¬ (t.operandWord .immediate .one).toInt < (t.operandWord .immediate .two).toInt) := by
  decide +kernel

/-- Both outcomes of the comparison (CMP3, CMP1). -/
theorem witness_EqStoresTheEquality :
    let s := State.new [1108, 2, 2, 5, 99, 7]
    let t := State.new [1108, 1, 2, 5, 99, 7]
    (s.ready (.eq .immediate .immediate .position) ∧
      (s.operandWord .immediate .one).toInt = (s.operandWord .immediate .two).toInt ∧
      (5 : Int) = s.paramAddress .write .position .three) ∧
    (t.ready (.eq .immediate .immediate .position) ∧
      ¬ (t.operandWord .immediate .one).toInt = (t.operandWord .immediate .two).toInt) := by
  decide +kernel

/-! ### Witnesses: IN, OUT, JT, JF, ARB, HLT -/

theorem witness_InStoresTheOldestInput :
    let s := withInput [3, 5, 3, 6, 99, 0, 0] [1, 2, 3]
    s.ready (.inp .position .position .position) ∧ s.inq = 1 :: [2, 3] ∧
      (5 : Int) = s.paramAddress .write .position .one := by decide +kernel

theorem witness_InWaitsOnAnEmptyQueue :
    let s := State.new [3, 0, 4, 0, 99]
    s.ready (.inp .position .position .position) ∧ s.inq = [] := by decide +kernel

theorem witness_OutAppendsTheOperand :
    (State.new [4, 3, 99, 70]).ready (.out .position .position .position) := by decide +kernel

/-- A condition that is not 0, a negative one (J6), and one that is 0. -/
theorem witness_JtJumpsWhenNotZero :
    let s := State.new [1105, -1, 3, 99]
    let t := State.new [1105, 0, 3, 99]
    (s.ready (.jt .immediate .immediate .position) ∧ (s.operandWord .immediate .one).toInt ≠ 0) ∧
    (t.ready (.jt .immediate .immediate .position) ∧ (t.operandWord .immediate .one).toInt = 0) := by
  decide +kernel

theorem witness_JfJumpsWhenZero :
    let s := State.new [1106, 0, 4, 99, 104, 5, 99]
    let t := State.new [1106, 1, 4, 99, 104, 5, 99]
    (s.ready (.jf .immediate .immediate .position) ∧ (s.operandWord .immediate .one).toInt = 0) ∧
    (t.ready (.jf .immediate .immediate .position) ∧ (t.operandWord .immediate .one).toInt ≠ 0) := by
  decide +kernel

/-- The largest base (B5, first ARB). -/
theorem witness_ArbAddsTheOperandToRb :
    let s := State.new [109, top, 109, 1, 99]
    s.ready (.arb .immediate .position .position) ∧
      fits (s.rb.toInt + (s.operandWord .immediate .one).toInt) := by decide +kernel

/-- One beyond each end of the range (B5, B6). -/
theorem witness_ArbOverflowIsLatched :
    let s := withBase [109, 1, 99] top
    let t := withBase [109, -1, 99] bottom
    (s.ready (.arb .immediate .position .position) ∧
      ¬ fits (s.rb.toInt + (s.operandWord .immediate .one).toInt)) ∧
    (t.ready (.arb .immediate .position .position) ∧
      ¬ fits (t.rb.toInt + (t.operandWord .immediate .one).toInt)) := by decide +kernel

/-- At address 0, and at the last address where a HLT completes. -/
theorem witness_HltHalts :
    (State.new [99]).ready (.hlt .position .position .position) ∧
      (State.reset.setPc (top - 1)).ready (.hlt .immediate .relative .position) := by decide +kernel

/-! ### Witnesses: faults of the common steps -/

/-- Each parameter of an ADD in turn (M15, M16, M17). -/
theorem witness_NegativeAddressIsLatched :
    let add := Instr.add .position .position .position
    let s := State.new [1, -1, -2, -3]
    let t := State.new [1, 0, -2, 0, 99]
    let u := State.new [1, 0, 0, bottom, 99]
    Param.first add.paramCount = [.one, .two, .three] ∧
    (s.roomFor 1 ∧ intMin ≤ s.paramAddress .read .position .one ∧
      s.paramAddress .read .position .one < 0) ∧
    (t.roomFor 2 ∧ t.resolves add .one ∧ intMin ≤ t.paramAddress .read .position .two ∧
      t.paramAddress .read .position .two < 0) ∧
    (u.roomFor 3 ∧ u.resolves add .one ∧ u.resolves add .two ∧
      intMin ≤ u.paramAddress .write .position .three ∧
      u.paramAddress .write .position .three < 0) := by decide +kernel

/-- B7, B8. -/
theorem witness_RelativeAddressOverflowIsLatched :
    let s := withBase [204, 1, 99] top
    let t := withBase [204, -1, 99] bottom
    (Param.one ∈ Param.first (Instr.out .relative .position .position).paramCount ∧ s.roomFor 1 ∧
      (Instr.out .relative .position .position).mode .one = .relative ∧
      ¬ fits ((s.paramWord .one).toInt + s.rb.toInt)) ∧
    (t.roomFor 1 ∧ ¬ fits ((t.paramWord .one).toInt + t.rb.toInt)) := by decide +kernel

/-- After decode (a HLT, an ADD), and after the third parameter of an ADD. -/
theorem witness_PcIncrementOverflowIsLatched :
    let s := State.reset.setPc top
    let t := State.reset.setPc (top - 3)
    let add := Instr.add .position .position .position
    (0 ≤ (Instr.hlt .position .position .position).paramCount ∧ 0 ≤ s.pc.toInt ∧
      s.pc.toInt + 0 = intMax) ∧
    (3 ≤ add.paramCount ∧ 0 ≤ t.pc.toInt ∧ t.pc.toInt + 3 = intMax ∧
      ∀ k ∈ Param.first 3, t.resolves add k) := by decide +kernel

/-- A fault at fetch, at decode and at a parameter. -/
theorem witness_FaultsArePrecise :
    (step (State.reset.setPc (-1)) = .next (after (State.reset.setPc (-1))) ∧
      (after (State.reset.setPc (-1))).faultValid = true) ∧
    (step State.reset = .next (after State.reset) ∧ (after State.reset).faultValid = true) ∧
    (step (State.new [3, -1, 99]) = .next (after (State.new [3, -1, 99])) ∧
      (after (State.new [3, -1, 99])).faultValid = true) :=
  ⟨⟨rfl, rfl⟩, ⟨rfl, rfl⟩, ⟨rfl, rfl⟩⟩

/-! ### Witnesses: whole-machine rules -/

theorem witness_OnlyArbChangesRb :
    ∃ t, exec (.arb .immediate .position .position) (State.new [109, 5]) = .next t ∧
      t.rb ≠ (State.new [109, 5]).rb :=
  ⟨after (State.new [109, 5]), rfl, by decide +kernel⟩

theorem witness_QueuesMoveOneEntryInOrder :
    (∃ t, exec (.inp .position .position .position) (withInput [3, 5] [1, 2]) = .next t ∧
      t.inq = [2]) ∧
    ∃ t, exec (.out .immediate .position .position) (State.new [104, 7]) = .next t ∧ t.outq = [7] :=
  ⟨⟨after (withInput [3, 5] [1, 2]), rfl, by decide +kernel⟩,
    after (State.new [104, 7]), rfl, by decide +kernel⟩

theorem witness_OnlyTheWriteTargetChanges :
    ∃ t, exec (.add .position .position .position) (State.new [1, 0, 0, 0, 99]) = .next t ∧
      t.mem.read 0 ≠ (State.new [1, 0, 0, 0, 99]).mem.read 0 :=
  ⟨after (State.new [1, 0, 0, 0, 99]), rfl, by decide +kernel⟩

/-- A cycle to each of the three run states. -/
theorem witness_CyclesFollowTheRunStateArrows :
    (∃ t, step (State.new [104, 7]) = .next t ∧ t.runState = .running) ∧
    (∃ t, step (State.new [3, 0]) = .next t ∧ t.runState = .waitingForInput) ∧
    ∃ t, step (State.new [99]) = .next t ∧ t.runState = .halted :=
  ⟨⟨after (State.new [104, 7]), rfl, rfl⟩, ⟨after (State.new [3, 0]), rfl, rfl⟩,
    after (State.new [99]), rfl, rfl⟩

/-- Two states that agree and differ in every register the spec leaves unspecified at reset. -/
theorem witness_UnspecifiedRegistersAreNeverRead :
    let s := State.new [1101, 1, 1, 7]
    let t : State := { s with
      faultCause := .invalidAddress, faultPc := 8, faultInfo := 9,
      scratch := { ir := 1, opc := .hlt, m1 := .relative, m2 := .relative, m3 := .relative,
                   oa1 := 5, oa2 := 6, oa3 := 7 } }
    s.agrees t ∧ s ≠ t :=
  ⟨⟨rfl, rfl, rfl, rfl, rfl, rfl, rfl, rfl, fun h => nomatch h⟩, by decide⟩

/-! ### Witnesses: memory and reset -/

/-- The addresses at which the clauses meet, and the last address. -/
theorem witness_MemoryPrimitivesFollowTheirRules :
    (-1 : Word).toInt < 0 ∧ 0 ≤ (0 : Word).toInt ∧ 0 ≤ top.toInt := by decide

theorem witness_CanonicalMemoriesAreTheirReads :
    Memory.wf [(0, 1), (9223372036854775807, -1)] ∧
      Memory.wf (Memory.write (Memory.seed [1]) 9223372036854775807 (-1)) ∧
      ∀ a, Memory.read [(0, 1), (9223372036854775807, -1)] a =
        Memory.read (Memory.write (Memory.seed [1]) 9223372036854775807 (-1)) a :=
  ⟨by decide, by decide, fun _ => rfl⟩

/-- Each of the three ways to a reset, from a state that a run has changed. -/
theorem witness_ResetLeavesTheResetValues :
    let s := after (State.new [1, 0, 0, 0, 99])
    (s.restart ≠ s ∧ s.program = [1, 0, 0, 0, 99] ∧ Returns .reset s .done s.restart) ∧
      (s.loadProgram [99] ≠ s ∧ Returns (.load [99]) s .done (s.loadProgram [99])) ∧
      State.new [99] = s.loadProgram [99] ∧ ((4 : Nat) : Int) ≤ intMax :=
  ⟨⟨by decide +kernel, rfl, 0, rfl⟩, ⟨by decide +kernel, 0, rfl⟩, rfl, by decide⟩

theorem witness_ResetForgetsTheRun :
    step (State.new [1, 0, 0, 0, 99]) = .next (after (State.new [1, 0, 0, 0, 99])) := rfl

/-! ### Witnesses: host commands -/

theorem witness_RunRepeatsCycles :
    Returns .run (State.new [99]) (.stopped .halted) (after (State.new [99])) ∧
      Returns .run (after (State.new [99])) (.rejected .invalidState) (after (State.new [99])) :=
  ⟨⟨1, rfl⟩, ⟨1, rfl⟩⟩

/-- `cycle` going on (J13), waiting, halted, faulted (H2) and rejected. -/
theorem witness_CycleReportsItsStep :
    Returns .cycle (State.new [1105, 1, 0]) (.stopped .running) (after (State.new [1105, 1, 0])) ∧
      Returns .cycle (State.new [3, 0]) (.stopped .waitingForInput) (after (State.new [3, 0])) ∧
      Returns .cycle (State.new [99]) (.stopped .halted) (after (State.new [99])) ∧
      Returns .cycle State.reset (.faulted .invalidOpcode 0) (after State.reset) ∧
      Returns .cycle (after State.reset) (.rejected .invalidState) (after State.reset) :=
  ⟨⟨0, rfl⟩, ⟨0, rfl⟩, ⟨0, rfl⟩, ⟨0, rfl⟩, 0, rfl⟩

theorem witness_ResumeRunsAWaitingEngine :
    (after (State.new [3, 0])).runState = .waitingForInput ∧
      (after (State.new [3, 0])).faultValid = false := by decide +kernel

theorem witness_CommandsAreRejectedByTheMatrix :
    Returns .cycle (after State.reset) (.rejected .invalidState) (after State.reset) ∧
      Returns .resume State.reset (.rejected .invalidState) State.reset :=
  ⟨⟨0, rfl⟩, ⟨0, rfl⟩⟩

theorem witness_RejectionChangesNothing :
    Returns (.peek (-1)) State.reset (.rejected .invalidAddress) State.reset ∧
      Returns .resume State.reset (.rejected .invalidState) State.reset :=
  ⟨⟨0, rfl⟩, ⟨0, rfl⟩⟩

theorem witness_IntrospectionOnlyReads :
    (-1 : Word).toInt < 0 ∧ 0 ≤ (0 : Word).toInt ∧ (after State.reset).faultValid = true ∧
      State.reset.faultValid = false := by decide +kernel

theorem witness_OnlyResetLeavesHalted :
    (after (State.new [99])).runOver ∧
      Returns .run (after (State.new [99])) (.rejected .invalidState) (after (State.new [99])) :=
  ⟨by decide +kernel, 1, rfl⟩

theorem witness_OnlyResetClearsTheLatch :
    (after State.reset).faultValid = true ∧
      Returns .drainOutput (after State.reset) (.output []) ((after State.reset).setOutq []) :=
  ⟨rfl, 0, rfl⟩

theorem witness_OnlyLoadReplacesTheProgram :
    Returns .run (State.new [3, 0]) (.stopped .waitingForInput) (after (State.new [3, 0])) ∧
      Returns (.load [99]) (State.new [3, 0]) .done (State.new [99]) :=
  ⟨⟨1, rfl⟩, 0, rfl⟩

theorem witness_CommandsReturnAtMostOnce :
    Returns .run (State.new [99]) (.stopped .halted) (after (State.new [99])) := ⟨1, rfl⟩

theorem witness_LateInputIsAsGoodAsEarlyInput :
    step (State.new [3, 0, 4, 0, 99]) = .next (after (State.new [3, 0, 4, 0, 99])) ∧
      (after (State.new [3, 0, 4, 0, 99])).runState = .waitingForInput := ⟨rfl, rfl⟩

/-- J13. -/
theorem witness_UnchangingCycleHangs :
    step (State.new [1105, 1, 0]) = .next (after (State.new [1105, 1, 0])) ∧
      (State.new [1105, 1, 0]).agrees (after (State.new [1105, 1, 0])) :=
  ⟨rfl, rfl, rfl, rfl, rfl, rfl, rfl, rfl, rfl, fun h => nomatch h⟩

/-! ### Witnesses: several instances -/

theorem witness_InstancesShareNothing :
    Instances.command [State.new [99], State.new [3, 0]] 1 1 .run =
      some (.stopped .waitingForInput, [State.new [99], after (State.new [3, 0])]) := by
  decide +kernel

theorem witness_CommandsOnTwoInstancesCommute :
    (0 : Nat) ≠ 1 ∧
      Instances.command [State.new [99], State.new [3, 0]] 1 0 .cycle =
        some (.stopped .halted, [after (State.new [99]), State.new [3, 0]]) ∧
      Instances.command [after (State.new [99]), State.new [3, 0]] 1 1 .run =
        some (.stopped .waitingForInput, [after (State.new [99]), after (State.new [3, 0])]) := by
  decide +kernel

/-! ### Witnesses: the invariant -/

theorem inv_echo : (State.new [3, 0, 4, 0, 99]).Inv :=
  ⟨by decide, fun h => (nomatch h), fun h => (nomatch h), fun k => by cases k <;> decide⟩

/-- A latched fault meets the invariant too. -/
theorem inv_faulted : (after State.reset).Inv :=
  ⟨by decide, fun _ => ⟨rfl, rfl⟩, fun h => (nomatch h), fun k => by cases k <;> decide⟩

theorem witness_StepKeepsTheInvariant :
    (State.new [3, 0, 4, 0, 99]).Inv ∧
      step (State.new [3, 0, 4, 0, 99]) = .next (after (State.new [3, 0, 4, 0, 99])) :=
  ⟨inv_echo, rfl⟩

theorem witness_CommandsKeepTheInvariant :
    (State.new [3, 0, 4, 0, 99]).Inv ∧
      Returns .run (State.new [3, 0, 4, 0, 99]) (.stopped .waitingForInput)
        (after (State.new [3, 0, 4, 0, 99])) :=
  ⟨inv_echo, 1, rfl⟩

theorem witness_PlacedWordIsTheNextInstruction :
    decodeTableWord 64 1101 = some (.add .immediate .immediate .position) := by decide +kernel

end Sys2Proof.Tests
end

/-!
The statements of spec/10_state.md: the registers the spec leaves unspecified, the invariant, the queues, the
run state, reset, what the host's commands keep, and a host with several engines.
-/

namespace Sys2Proof.Machine

/-! ### One step, by what the fetch finds -/

theorem step_of_decode_ok {s : State} {i : Instr} (hr : s.runnable) (hp : 0 ≤ s.pc.toInt)
    (hd : decode (s.mem.read s.pc.toNat) = .ok i) : step s = exec i s :=
  step_of_fetched hr (by rw [s.fetchDecode_of_nonneg hp, hd])

theorem step_of_decode_error {s : State} {e : DecodeError} (hr : s.runnable) (hp : 0 ≤ s.pc.toInt)
    (hd : decode (s.mem.read s.pc.toNat) = .error e) :
    step s = .next (takeFault s.pc (s.raiseDecode (s.mem.read s.pc.toNat) e)) :=
  step_of_raised hr (by rw [s.fetchDecode_of_nonneg hp, hd])

theorem step_of_negative_pc {s : State} (hr : s.runnable) (hp : s.pc.toInt < 0) :
    step s = .next (takeFault s.pc (s.raiseAddress s.pc)) :=
  step_of_raised hr (s.fetchDecode_of_neg hp)

/-! ### What a successful execute step keeps -/

/-- An execute step that succeeds touches neither PROGRAM nor the fault latch nor the scratch pad. -/
theorem executeStep_frame {s u t : State} {i : Instr} (h : s.Progress i i.paramCount u)
    (he : executeStep i.opcode u = .ok t) :
    t.program = s.program ∧ s.keepsLatch t ∧ t.scratch = u.scratch := by
  have hm := h.moved
  rcases executeStep_ok h he with ⟨_, v, rfl⟩ | ⟨_, _, _, _, _, rfl⟩ | ⟨_, _, _, v, rest, _, _, rfl⟩ |
    ⟨_, _, _, _, rfl⟩ | ⟨_, rfl | ⟨v, rfl⟩⟩ | ⟨_, _, _, _, v, rfl⟩ | ⟨_, _, _, _, rfl⟩
  all_goals exact ⟨hm.program, hm.keepsLatch, rfl⟩

/-- An IN that waits puts PC back where the cycle began. -/
theorem State.Progress.pc_sub_two {s u : State} {i : Instr} (h : s.Progress i 1 u) :
    u.pc - 2 = s.pc := by
  have hpc := h.pc
  have hmin := intMin_le_toInt s.pc
  have hmax := toInt_le_intMax s.pc
  apply toInt_injective
  simp only [intMin, intMax] at hmin hmax
  rw [BitVec.toInt_sub, hpc, show (2 : Word).toInt = 2 from rfl, Int.bmod]
  omega

/-- The run state after an execute step: as before, or waiting at an IN whose queue was empty, with PC and
memory as before the cycle, or halted by a HLT. -/
theorem executeStep_runState {s u t : State} {i : Instr} (h : s.Progress i i.paramCount u)
    (he : executeStep i.opcode u = .ok t) :
    t.runState = s.runState ∨
      (t.runState = .waitingForInput ∧ s.inq = [] ∧ (∃ m1 m2 m3, i = .inp m1 m2 m3) ∧
        t.pc = s.pc ∧ t.mem = s.mem) ∨
      (t.runState = .halted ∧ ∃ m1 m2 m3, i = .hlt m1 m2 m3) := by
  have hm := h.moved
  rcases executeStep_ok h he with ⟨_, v, rfl⟩ | ⟨m1, m2, m3, rfl, hq, rfl⟩ |
    ⟨_, _, _, v, rest, _, _, rfl⟩ | ⟨_, _, _, _, rfl⟩ | ⟨_, rfl | ⟨v, rfl⟩⟩ | ⟨_, _, _, _, v, rfl⟩ |
    ⟨m1, m2, m3, rfl, rfl⟩
  · exact .inl hm.runState
  · exact .inr (.inl ⟨rfl, hq, ⟨m1, m2, m3, rfl⟩, h.pc_sub_two, hm.mem⟩)
  · exact .inl hm.runState
  · exact .inl hm.runState
  · exact .inl hm.runState
  · exact .inl hm.runState
  · exact .inl hm.runState
  · exact .inr (.inr ⟨rfl, m1, m2, m3, rfl⟩)

/-- The address a parameter resolves to is the key of a memory cell. -/
theorem State.resolves.toNat_lt {s : State} {i : Instr} {k : Param} (h : s.resolves i k) :
    (s.paramAddress (i.kind k) (i.mode k) k).toNat < Config.addressLimit := by
  obtain ⟨h0, h1⟩ := h
  simp only [intMax, Config.addressLimit] at *
  omega

/-- An execute step keeps memory in canonical form: it writes nothing, or at a resolved write target. -/
theorem executeStep_mem_wf {s u t : State} {i : Instr} (h : s.Progress i i.paramCount u)
    (he : executeStep i.opcode u = .ok t) (hw : s.mem.wf) : t.mem.wf := by
  have kept : u.mem.wf := by rw [h.moved.mem]; exact hw
  rcases executeStep_ok h he with ⟨hf, v, rfl⟩ | ⟨_, _, _, _, _, rfl⟩ |
    ⟨m1, m2, m3, v, rest, rfl, _, rfl⟩ | ⟨_, _, _, _, rfl⟩ | ⟨_, rfl | ⟨v, rfl⟩⟩ |
    ⟨_, _, _, _, v, rfl⟩ | ⟨_, _, _, _, rfl⟩
  · obtain ⟨hk, hkind⟩ := format_param hf .three (by decide)
    have hlt := (h.resolved .three hk).2.toNat_lt
    rw [hkind] at hlt
    exact Memory.wf_write hw hlt v
  · exact kept
  · have hk : Param.one ∈ Param.first 1 := by decide
    exact Memory.wf_write hw (h.resolved .one hk).2.toNat_lt v
  · exact kept
  · exact kept
  · exact kept
  · exact kept
  · exact kept

/-! ### The registers the spec leaves unspecified -/

/-- Faults raised alike are taken alike. -/
theorem takeFault_agree {r r' : Raised} (h : r.alike r') (pc0 : Word) :
    outcomesAgree (.next (takeFault pc0 r)) (.next (takeFault pc0 r')) :=
  endCycle_agree (x := .error r) (y := .error r') h pc0

theorem raiseAddress_alike {s t : State} (h : s.agrees t) (a : Word) :
    (s.raiseAddress a).alike (t.raiseAddress a) := ⟨rfl, rfl, h⟩

theorem raiseDecode_alike {s t : State} (h : s.agrees t) (w : Word) (e : DecodeError) :
    (s.raiseDecode w e).alike (t.raiseDecode w e) := by
  cases e <;> exact ⟨rfl, rfl, h⟩

/-- Settles O35: the fetch finds the same in both states, and after it both raise alike or run the same
instruction (`exec_agree`). -/
theorem unspecifiedRegistersAreNeverRead : Obligations.UnspecifiedRegistersAreNeverRead := by
  unfold Obligations.UnspecifiedRegistersAreNeverRead
  intro s t h
  by_cases hr : s.runnable
  · have hr' : t.runnable := ⟨h.runState.trans hr.1, h.faultValid.trans hr.2⟩
    by_cases hp : s.pc.toInt < 0
    · rw [step_of_negative_pc hr hp, step_of_negative_pc hr' (by rwa [h.pc]), h.pc]
      exact takeFault_agree (raiseAddress_alike h _) _
    · have hp := Int.not_lt.mp hp
      have hp' : 0 ≤ t.pc.toInt := by rwa [h.pc]
      have hw : t.mem.read t.pc.toNat = s.mem.read s.pc.toNat := by rw [h.mem, h.pc]
      rcases hd : decode (s.mem.read s.pc.toNat) with e | i
      · rw [step_of_decode_error hr hp hd, step_of_decode_error hr' hp' (hw ▸ hd), hw, h.pc]
        exact takeFault_agree (raiseDecode_alike h _ e) _
      · rw [step_of_decode_ok hr hp hd, step_of_decode_ok hr' hp' (hw ▸ hd)]
        exact exec_agree rfl (fun k _ => ⟨rfl, fun _ _ _ => rfl⟩) h
  · have hr' : ¬ t.runnable := fun ⟨h1, h2⟩ => hr ⟨h.runState ▸ h1, h.faultValid ▸ h2⟩
    rw [step_of_not_runnable hr, step_of_not_runnable hr']
    rfl

/-! ### The invariant -/

/-- Fault entry keeps the invariant. -/
theorem takeFault_keeps_inv {s : State} {r : Raised} (hs : s.Inv) (hrun : s.runState = .running)
    (hr : r.soundFor s) (pc0 : Word) : (takeFault pc0 r).Inv where
  memory := by rw [takeFault_mem, hr.moved.mem]; exact hs.memory
  latch _ := ⟨hr.moved.runState.trans hrun, hr.explained⟩
  waiting hw := by rw [takeFault_runState, hr.moved.runState, hrun] at hw; cases hw
  addresses := hr.addresses hs.addresses

/-- Settles O56: a cycle ends in fault entry, or in an execute step whose effect on memory, the latch, the run
state and the scratch pad the lemmas above give. -/
theorem stepKeepsTheInvariant : Obligations.StepKeepsTheInvariant := by
  unfold Obligations.StepKeepsTheInvariant
  intro s t hs h
  obtain ⟨⟨hrun, hvalid⟩, ⟨r, hr, rfl⟩ | ⟨i, u, hp, hd, _, hu, he⟩⟩ := step_cases h
  · exact takeFault_keeps_inv hs hrun hr _
  · obtain ⟨_, ⟨hlatch, _⟩, hscratch⟩ := executeStep_frame hu he
    have hvalid : t.faultValid = false := hlatch.trans hvalid
    refine ⟨executeStep_mem_wf hu he hs.memory, fun hv => ?_, fun hw => ?_, fun k => ?_⟩
    · rw [hvalid] at hv; cases hv
    · rcases executeStep_runState hu he with hk | ⟨_, _, ⟨m1, m2, m3, rfl⟩, hpc, hmem⟩ | ⟨hh, _⟩
      · rw [hk, hrun] at hw; cases hw
      · rw [hpc, hmem]; exact ⟨hvalid, hp, m1, m2, m3, hd⟩
      · rw [hh] at hw; cases hw
    · rw [hscratch]; exact hu.addresses hs.addresses k

/-! ### The queues and the run state -/

/-- Settles O30, by what the one write of a cycle does to the queues. -/
theorem queuesMoveOneEntryInOrder : Obligations.QueuesMoveOneEntryInOrder := by
  unfold Obligations.QueuesMoveOneEntryInOrder
  intro i s t h
  rcases exec_cases h with ⟨r, hr, rfl⟩ | ⟨u, hu, he⟩
  · exact ⟨.inl hr.moved.inq, .inl hr.moved.outq⟩
  · have hin := hu.moved.inq
    have hout := hu.moved.outq
    rcases executeStep_ok hu he with ⟨_, v, rfl⟩ | ⟨_, _, _, _, _, rfl⟩ |
      ⟨m1, m2, m3, v, rest, rfl, hq, rfl⟩ | ⟨m1, m2, m3, rfl, rfl⟩ | ⟨_, rfl | ⟨v, rfl⟩⟩ |
      ⟨_, _, _, _, v, rfl⟩ | ⟨_, _, _, _, rfl⟩
    · exact ⟨.inl hin, .inl hout⟩
    · exact ⟨.inl hin, .inl hout⟩
    · exact ⟨.inr ⟨rfl, v, hq⟩, .inl hout⟩
    · exact ⟨.inl hin, .inr ⟨rfl, _, rfl⟩⟩
    · exact ⟨.inl hin, .inl hout⟩
    · exact ⟨.inl hin, .inl hout⟩
    · exact ⟨.inl hin, .inl hout⟩
    · exact ⟨.inl hin, .inl hout⟩

/-- Settles O32: fault entry leaves the run state alone, and an execute step follows the arrows. -/
theorem cyclesFollowTheRunStateArrows : Obligations.CyclesFollowTheRunStateArrows := by
  unfold Obligations.CyclesFollowTheRunStateArrows
  intro s t h
  obtain ⟨⟨hrun, _⟩, ⟨r, hr, rfl⟩ | ⟨i, u, _, hd, _, hu, he⟩⟩ := step_cases h
  · exact ⟨hrun, .inl (hr.moved.runState.trans hrun)⟩
  · refine ⟨hrun, ?_⟩
    rcases executeStep_runState hu he with hk | ⟨hw, hq, ⟨m1, m2, m3, rfl⟩, _⟩ |
      ⟨hh, m1, m2, m3, rfl⟩
    · exact .inl (hk.trans hrun)
    · exact .inr (.inl ⟨hw, hq, m1, m2, m3, hd⟩)
    · exact .inr (.inr ⟨hh, m1, m2, m3, hd⟩)

/-! ### Reset -/

theorem State.restart_read (s : State) {a : Nat} (h : (a : Int) ≤ intMax) :
    s.restart.mem.read a = s.program.getD a 0 :=
  Memory.read_seed _ _ (by simp only [intMax, Config.addressLimit] at *; omega)

/-- A command whose answer does not depend on how long it is watched returns that answer alone. -/
theorem returns_iff_of_forall {c : Command} {s t : State} {r : Response}
    (h : ∀ n, s.command n c = some (r, t)) (r' : Response) (t' : State) :
    Returns c s r' t' ↔ r' = r ∧ t' = t := by
  simp [Returns, h, eq_comm]

/-- Settles O38: `load` and `new` are `restart` after PROGRAM is replaced. -/
theorem resetLeavesTheResetValues : Obligations.ResetLeavesTheResetValues := by
  unfold Obligations.ResetLeavesTheResetValues
  refine ⟨fun s => returns_iff_of_forall fun _ => rfl,
    fun program s => returns_iff_of_forall fun _ => rfl, fun s program t p h => ?_⟩
  obtain ⟨s', rfl, rfl⟩ : ∃ s' : State, t = s'.restart ∧ p = s'.program := by
    rcases h with ⟨rfl, rfl⟩ | ⟨rfl, rfl⟩ | ⟨rfl, rfl⟩ <;> exact ⟨_, rfl, rfl⟩
  exact ⟨fun a ha => s'.restart_read ha, rfl, rfl, rfl, rfl, rfl, rfl, rfl⟩

/-! ### What a command that returns can do -/

/-- `t` is reached from `s` by cycles alone, none or more. -/
def Cycles : State → State → Prop := Relation.ReflTransGen fun s t => step s = .next t

/-- No cycle starts from an engine that cannot run. -/
theorem Cycles.eq_of_not_runnable {s t : State} (h : Cycles s t) (hs : ¬ s.runnable) : t = s := by
  rcases Relation.ReflTransGen.cases_head h with rfl | ⟨u, hu, _⟩
  · rfl
  · exact absurd (step_cases hu).1 hs

/-- What every step keeps, cycles keep. -/
theorem Cycles.keep {P : State → Prop} (hP : ∀ s t, P s → step s = .next t → P t) {s t : State}
    (h : Cycles s t) (hs : P s) : P t := by
  induction h with
  | refl => exact hs
  | tail _ hstep ih => exact hP _ _ ih hstep

/-- `cycle` performs one cycle, or none and is rejected. -/
theorem cycleCommand_cycles {s t : State} {r : Response} (h : s.cycleCommand = some (r, t)) :
    Cycles s t := by
  rcases cycleCommand_cases s with ⟨_, hc⟩ | ⟨_, u, hu, hc⟩
  · cases hc.symm.trans h; exact .refl
  · cases hc.symm.trans h; exact .single hu

/-- `run` performs cycles alone. -/
theorem runWithin_cycles {n : Nat} : ∀ {s t : State} {r : Response},
    State.runWithin n s = some (r, t) → Cycles s t := by
  induction n with
  | zero => intro s t r h; cases h
  | succ n ih =>
    intro s t r h
    rw [State.runWithin] at h
    split at h
    · rename_i u hc
      exact (cycleCommand_cycles hc).trans (ih h)
    · exact cycleCommand_cycles h

/-- What a command that returns can do: a reset of the same Program or of another one, a change of one queue,
or cycles, for `resume` after the waiting engine has been set running. A command that only looks performs no
cycle. -/
theorem returns_cases {c : Command} {s t : State} {r : Response} (h : Returns c s r t) :
    (c = .reset ∧ t = s.restart) ∨ (∃ program, c = .load program ∧ t = s.loadProgram program) ∨
      (∃ q, t = s.setInq q) ∨ (∃ q, t = s.setOutq q) ∨ Cycles s t ∨
      (s.runState = .waitingForInput ∧ s.faultValid = false ∧ Cycles (s.setRunState .running) t) := by
  obtain ⟨n, h⟩ := h
  cases c with
  | load program => cases h; exact .inr (.inl ⟨program, rfl, rfl⟩)
  | reset => cases h; exact .inl ⟨rfl, rfl⟩
  | pushInput v => cases h; exact .inr (.inr (.inl ⟨_, rfl⟩))
  | drainOutput => cases h; exact .inr (.inr (.inr (.inl ⟨_, rfl⟩)))
  | run => exact .inr (.inr (.inr (.inr (.inl (runWithin_cycles h)))))
  | cycle => exact .inr (.inr (.inr (.inr (.inl (cycleCommand_cycles h)))))
  | resume =>
    rw [State.command, State.resumeWithin] at h
    split at h
    · rename_i hw
      exact .inr (.inr (.inr (.inr (.inr ⟨hw.1, hw.2, runWithin_cycles h⟩))))
    · cases h; exact .inr (.inr (.inr (.inr (.inl .refl))))
  | peek | halted | outCount | inCount | runState | readPc | readRb | readFault =>
    cases h; exact .inr (.inr (.inr (.inr (.inl .refl))))

/-- Settles O47: a halted engine starts no cycle and is not waiting, so nothing but its queues can change. -/
theorem onlyResetLeavesHalted : Obligations.OnlyResetLeavesHalted := by
  unfold Obligations.OnlyResetLeavesHalted
  intro c s r t h hover
  have hstuck : ¬ s.runnable := fun hr => nomatch hover.1.symm.trans hr.1
  rcases returns_cases h with ⟨hc, _⟩ | ⟨program, hc, _⟩ | ⟨q, rfl⟩ | ⟨q, rfl⟩ | hcyc | ⟨hw, _⟩
  · exact .inr (.inl hc)
  · exact .inr (.inr ⟨program, hc⟩)
  · exact .inl hover
  · exact .inl hover
  · rw [hcyc.eq_of_not_runnable hstuck]; exact .inl hover
  · exact nomatch hover.1.symm.trans hw

/-- Settles O48: an engine that holds a fault starts no cycle and cannot be resumed, so nothing but its queues
can change. -/
theorem onlyResetClearsTheLatch : Obligations.OnlyResetClearsTheLatch := by
  unfold Obligations.OnlyResetClearsTheLatch
  intro c s r t h hvalid
  have hstuck : ¬ s.runnable := fun hr => nomatch hvalid.symm.trans hr.2
  have same := (State.movedTo.refl s).keepsLatch
  rcases returns_cases h with ⟨hc, _⟩ | ⟨program, hc, _⟩ | ⟨q, rfl⟩ | ⟨q, rfl⟩ | hcyc | ⟨_, hv, _⟩
  · exact .inr (.inl hc)
  · exact .inr (.inr ⟨program, hc⟩)
  · exact .inl ⟨same, rfl, rfl, rfl, rfl⟩
  · exact .inl ⟨same, rfl, rfl, rfl, rfl⟩
  · rw [hcyc.eq_of_not_runnable hstuck]; exact .inl ⟨same, rfl, rfl, rfl, rfl⟩
  · exact nomatch hvalid.symm.trans hv

theorem step_program {s t : State} (h : step s = .next t) : t.program = s.program := by
  obtain ⟨_, ⟨r, hr, rfl⟩ | ⟨i, u, _, _, _, hu, he⟩⟩ := step_cases h
  · exact hr.moved.program
  · exact (executeStep_frame hu he).1

theorem Cycles.program {s t : State} (h : Cycles s t) : t.program = s.program :=
  h.keep (P := fun u => u.program = s.program) (fun _ _ hu hstep => (step_program hstep).trans hu) rfl

/-- Settles O49: no step changes PROGRAM, so no number of cycles does. -/
theorem onlyLoadReplacesTheProgram : Obligations.OnlyLoadReplacesTheProgram := by
  unfold Obligations.OnlyLoadReplacesTheProgram
  intro c s r t h
  rcases returns_cases h with ⟨_, rfl⟩ | ⟨program, rfl, rfl⟩ | ⟨q, rfl⟩ | ⟨q, rfl⟩ | hcyc |
    ⟨_, _, hcyc⟩
  · exact .inl rfl
  · exact .inr rfl
  · exact .inl rfl
  · exact .inl rfl
  · exact .inl hcyc.program
  · exact .inl hcyc.program

/-! ### Several instances -/

/-- A command at place `k` of the list is that command on the state there, put back in its place. -/
theorem Instances.command_eq_some {b b' : Instances} {n k : Nat} {c : Command} {r : Response}
    (h : b.command n k c = some (r, b')) :
    ∃ s t, b[k]? = some s ∧ s.command n c = some (r, t) ∧ b' = b.set k t := by
  unfold Instances.command at h
  split at h
  · cases h
  · rename_i s hs
    split at h
    · cases h
    · rename_i r' t ht
      cases h
      exact ⟨s, t, hs, ht, rfl⟩

/-- Settles O53: replacing one entry of the list leaves the others. -/
theorem instancesShareNothing : Obligations.InstancesShareNothing := by
  unfold Obligations.InstancesShareNothing
  intro b b' n k c r h
  obtain ⟨s, t, hs, ht, rfl⟩ := Instances.command_eq_some h
  have hk : k < b.length := (List.getElem?_eq_some_iff.mp hs).1
  exact ⟨⟨s, t, hs, ht, List.getElem?_set_self hk⟩, fun j hj => List.getElem?_set_ne hj.symm⟩

end Sys2Proof.Machine

/-!
The statements of spec/20_memory.md: what the primitives read and write, and memories that cannot be told apart.
-/

namespace Sys2Proof.Machine

/-- Settles O36, by the primitives' lemmas at each sign of the address; what the write changes is the
read-after-write rule. -/
theorem memoryPrimitivesFollowTheirRules : Obligations.MemoryPrimitivesFollowTheirRules := by
  unfold Obligations.MemoryPrimitivesFollowTheirRules
  intro s a v
  refine ⟨fun hneg => ?_, fun hpos => ?_⟩
  · exact ⟨s.memRead_of_neg hneg, s.memWrite_of_neg v hneg⟩
  · exact ⟨s.memRead_of_nonneg hpos, _, s.memWrite_of_nonneg v hpos, Memory.read_write_self _ _ _,
      fun _ hb => Memory.read_write_of_ne _ _ hb⟩

/-! ### Memories that read alike -/

/-- An address below every listed one reads as unwritten. -/
theorem Memory.read_of_lt_all {m : Memory} {a : Nat} (h : ∀ x ∈ m, a < x.1) : m.read a = 0 := by
  induction m with
  | nil => rfl
  | cons x m ih =>
    obtain ⟨hx, hm⟩ := List.forall_mem_cons.mp h
    rw [Memory.read_cons, if_neg (Nat.ne_of_gt hx), ih hm]

/-- In canonical form the listed cells are exactly the words that read other than 0, each at its address. -/
theorem Memory.mem_iff_read {m : Memory} (h : m.wf) (x : Cell) :
    x ∈ m ↔ m.read x.1 = x.2 ∧ x.2 ≠ 0 := by
  induction m with
  | nil => exact ⟨nofun, fun ⟨hv, hne⟩ => absurd hv.symm hne⟩
  | cons y m ih =>
    obtain ⟨k, w⟩ := y
    obtain ⟨a, v⟩ := x
    obtain ⟨hsorted, hcells⟩ := h
    obtain ⟨hfirst, hrest⟩ := List.pairwise_cons.mp hsorted
    obtain ⟨⟨hw, _⟩, hcells⟩ := List.forall_mem_cons.mp hcells
    rw [List.mem_cons, ih ⟨hrest, hcells⟩, Memory.read_cons]
    by_cases hk : k = a
    · subst hk
      have hlater : Memory.read m k = 0 := Memory.read_of_lt_all hfirst
      rw [if_pos rfl, hlater]
      constructor
      · rintro (heq | ⟨hv, hne⟩)
        · cases heq; exact ⟨rfl, hw⟩
        · exact absurd hv.symm hne
      · rintro ⟨rfl, _⟩; exact .inl rfl
    · simp [hk, Ne.symm hk]

/-- Settles O37: memories that read alike list the same cells (`Memory.mem_iff_read`), and a list in strictly
rising order of address is determined by its members. -/
theorem canonicalMemoriesAreTheirReads : Obligations.CanonicalMemoriesAreTheirReads := by
  unfold Obligations.CanonicalMemoriesAreTheirReads
  intro m n hm hn hread
  have : Std.Asymm fun x y : Cell => x.1 < y.1 := ⟨fun _ _ => Nat.lt_asymm⟩
  exact hm.1.eq_of_mem_iff hn.1 fun x => by
    rw [Memory.mem_iff_read hm, Memory.mem_iff_read hn, hread]

end Sys2Proof.Machine

/-!
The statements of spec/30_encoding.md: which words decode, what a word that does not decode raises, and
which mode digits select nothing.
-/

namespace Sys2Proof

/-! ### The encoder and the decoder -/

theorem Opcode.code_range (op : Opcode) : 1 ≤ op.code ∧ op.code ≤ 99 := by cases op <;> decide

theorem Mode.digit_le (m : Mode) : m.digit ≤ 2 := by cases m <;> decide

/-- The bounds of the legal words (rule R89). -/
theorem instrNumber_range (op : Opcode) (m1 m2 m3 : Mode) :
    1 ≤ instrNumber op m1 m2 m3 ∧ instrNumber op m1 m2 m3 ≤ 22299 := by
  have hop := op.code_range
  have h1 := m1.digit_le
  have h2 := m2.digit_le
  have h3 := m3.digit_le
  unfold instrNumber
  omega

theorem Instr.exists_eq_instr (i : Instr) : ∃ (op : Opcode) (m1 m2 m3 : Mode), i = op.instr m1 m2 m3 :=
  ⟨i.opcode, i.mode .one, i.mode .two, i.mode .three, by cases i <;> rfl⟩

@[simp] theorem Opcode.instr_mode_one (op : Opcode) (m1 m2 m3 : Mode) :
    (op.instr m1 m2 m3).mode .one = m1 := by cases op <;> rfl

@[simp] theorem Opcode.instr_mode_two (op : Opcode) (m1 m2 m3 : Mode) :
    (op.instr m1 m2 m3).mode .two = m2 := by cases op <;> rfl

@[simp] theorem Opcode.instr_mode_three (op : Opcode) (m1 m2 m3 : Mode) :
    (op.instr m1 m2 m3).mode .three = m3 := by cases op <;> rfl

@[simp] theorem encode_instr_toNat (op : Opcode) (m1 m2 m3 : Mode) :
    (encode (op.instr m1 m2 m3)).toNat = instrNumber op m1 m2 m3 := by
  have := (instrNumber_range op m1 m2 m3).2
  rw [op.encode_instr, BitVec.toNat_ofNat, Nat.mod_eq_of_lt (by omega)]

@[simp] theorem encode_instr_toInt (op : Opcode) (m1 m2 m3 : Mode) :
    (encode (op.instr m1 m2 m3)).toInt = instrNumber op m1 m2 m3 := by
  have := (instrNumber_range op m1 m2 m3).2
  rw [BitVec.toInt_eq_toNat_of_lt (by rw [encode_instr_toNat]; omega), encode_instr_toNat]

/-- The digits of an instruction's number are its opcode and its modes (rule R81). -/
theorem instrNumber_digits (op : Opcode) (m1 m2 m3 : Mode) :
    instrNumber op m1 m2 m3 % 100 = op.code ∧ instrNumber op m1 m2 m3 / 100 ≤ 999 ∧
      digit (instrNumber op m1 m2 m3) 2 = m1.digit ∧ digit (instrNumber op m1 m2 m3) 3 = m2.digit ∧
      digit (instrNumber op m1 m2 m3) 4 = m3.digit := by
  have hop := op.code_range
  have h1 := m1.digit_le
  have h2 := m2.digit_le
  have h3 := m3.digit_le
  simp only [digit, instrNumber]
  omega

theorem decode_encode (i : Instr) : decode (encode i) = .ok i := by
  obtain ⟨op, m1, m2, m3, rfl⟩ := i.exists_eq_instr
  obtain ⟨hop, hshort, h1, h2, h3⟩ := instrNumber_digits op m1 m2 m3
  simp [decode, hop, Nat.not_lt.mpr hshort, h1, h2, h3]

/-- A word that decodes is the number of its instruction: it has no digit but those decode reads. -/
theorem encode_of_decode {w : Word} {i : Instr} (h : decode w = .ok i) : encode i = w := by
  obtain ⟨_, hshort, op, m1, m2, m3, rfl, hop, h1, h2, h3⟩ := decode_ok h
  apply BitVec.eq_of_toNat_eq
  rw [encode_instr_toNat, instrNumber, hop, h1, h2, h3]
  simp only [digit]
  omega

/-! ### The legal words -/

/-- The ten opcodes, in order of their numbers. -/
def Opcode.all : List Opcode := [.add, .mul, .inp, .out, .jt, .jf, .lt, .eq, .arb, .hlt]

/-- The three modes, in order of their digits. -/
def Mode.all : List Mode := [.position, .immediate, .relative]

theorem Opcode.mem_all (op : Opcode) : op ∈ Opcode.all := by cases op <;> decide

theorem Mode.mem_all (m : Mode) : m ∈ Mode.all := by cases m <;> decide

theorem opcodeNumbers_eq : opcodeNumbers = Opcode.all.map fun op => (op.code : Int) := rfl

theorem mem_opcodeNumbers (v : Int) : v ∈ opcodeNumbers ↔ ∃ op : Opcode, (op.code : Int) = v := by
  simp [opcodeNumbers_eq, Opcode.mem_all]

/-- Every choice of three mode digits is a legal mode field (rule R82). -/
theorem legalModeFields_eq : legalModeFields =
    Mode.all.flatMap fun m3 => Mode.all.flatMap fun m2 => Mode.all.map fun m1 =>
      (m1.digit + 10 * m2.digit + 100 * m3.digit : Int) := rfl

theorem mem_legalModeFields (v : Int) : v ∈ legalModeFields ↔
    ∃ m1 m2 m3 : Mode, (m1.digit + 10 * m2.digit + 100 * m3.digit : Int) = v := by
  simp only [legalModeFields_eq, List.mem_flatMap, List.mem_map, Mode.mem_all, true_and]
  exact ⟨fun ⟨m3, m2, m1, h⟩ => ⟨m1, m2, m3, h⟩, fun ⟨m1, m2, m3, h⟩ => ⟨m3, m2, m1, h⟩⟩

/-- The legal words are the numbers of the instructions. -/
theorem mem_legalInstructionWords (v : Int) : v ∈ legalInstructionWords ↔
    ∃ (op : Opcode) (m1 m2 m3 : Mode), (instrNumber op m1 m2 m3 : Int) = v := by
  simp only [legalInstructionWords, List.mem_flatMap, List.mem_map, mem_legalModeFields,
    mem_opcodeNumbers]
  constructor
  · rintro ⟨_, ⟨m1, m2, m3, rfl⟩, _, ⟨op, rfl⟩, rfl⟩
    exact ⟨op, m1, m2, m3, by simp only [instrNumber]; omega⟩
  · rintro ⟨op, m1, m2, m3, rfl⟩
    exact ⟨_, ⟨m1, m2, m3, rfl⟩, _, ⟨op, rfl⟩, by simp only [instrNumber]; omega⟩

theorem legalInstructionWords_length : legalInstructionWords.length = 270 := by
  have hfields : legalModeFields.length = 27 := rfl
  have hops : opcodeNumbers.length = 10 := rfl
  simp [legalInstructionWords, List.length_flatMap, hfields, hops]

/-- An opcode number has at most two digits, so two mode fields share no word. -/
theorem legalInstructionWords_nodup : legalInstructionWords.Nodup := by
  have hops : opcodeNumbers.Nodup := by decide
  have hfields : legalModeFields.Nodup := by decide
  refine List.nodup_flatMap.mpr ⟨fun mf _ => hops.map fun a b h => ?_, hfields.imp fun hne => ?_⟩
  · exact Int.add_left_cancel h
  · rintro v hv hv'
    simp only [List.mem_map, mem_opcodeNumbers] at hv hv'
    obtain ⟨_, ⟨op, rfl⟩, rfl⟩ := hv
    obtain ⟨_, ⟨op', rfl⟩, h⟩ := hv'
    have hop := op.code_range
    have hop' := op'.code_range
    omega

/-- Settles O3: a word decodes exactly when it is the word of an instruction, and the numbers of the
instructions are rule R89's set. -/
theorem decodesExactlyTheLegalWords : Obligations.DecodesExactlyTheLegalWords := by
  unfold Obligations.DecodesExactlyTheLegalWords
  refine ⟨fun w => ?_, legalInstructionWords_nodup, legalInstructionWords_length, ⟨?_, ?_⟩,
    fun v hv => ?_⟩
  · rw [mem_legalInstructionWords]
    constructor
    · rintro ⟨i, h⟩
      obtain ⟨op, m1, m2, m3, rfl⟩ := i.exists_eq_instr
      exact ⟨op, m1, m2, m3, by rw [← encode_of_decode h, encode_instr_toInt]⟩
    · rintro ⟨op, m1, m2, m3, h⟩
      have hw : encode (op.instr m1 m2 m3) = w := toInt_injective (by rw [encode_instr_toInt, h])
      exact ⟨_, hw ▸ decode_encode _⟩
  · exact (mem_legalInstructionWords 1).mpr ⟨.add, .position, .position, .position, rfl⟩
  · exact (mem_legalInstructionWords 22299).mpr ⟨.hlt, .relative, .relative, .relative, rfl⟩
  · obtain ⟨op, m1, m2, m3, rfl⟩ := (mem_legalInstructionWords v).mp hv
    have := instrNumber_range op m1 m2 m3
    omega

/-! ### The words that do not decode -/

theorem decode_of_negative {w : Word} (h : w.toInt < 0) : decode w = .error .invalidOpcode := if_pos h

theorem decode_of_unregistered {w : Word} (hw : 0 ≤ w.toInt) (h : w.toInt % 100 ∉ opcodeNumbers) :
    decode w = .error .invalidOpcode := by
  have hnat := toNat_eq_toInt hw
  have hcode : Opcode.ofCode (w.toNat % 100) = none :=
    Opcode.ofCode_of_not_registered (by push_cast; rwa [hnat])
  simp [decode, Int.not_lt.mpr hw, hcode]

/-- A word that is not negative and has a registered opcode decodes, or its mode field is at fault. -/
theorem decode_error_of_registered {w : Word} {e : DecodeError} (hw : 0 ≤ w.toInt)
    (hop : w.toInt % 100 ∈ opcodeNumbers) (h : decode w = .error e) : e = .invalidParameterMode := by
  obtain ⟨op, hop⟩ := (mem_opcodeNumbers _).mp hop
  have hnat := toNat_eq_toInt hw
  have hcode : Opcode.ofCode (w.toNat % 100) = some op := by
    rw [show w.toNat % 100 = op.code by omega, Opcode.ofCode_code]
  simp only [decode, Int.not_lt.mpr hw, if_false, hcode] at h
  split at h
  · cases h; rfl
  · split at h <;> cases h
    rfl

/-- No word with an illegal mode field decodes (rule R82). -/
theorem decode_of_illegal_modes {w : Word} (hw : 0 ≤ w.toInt) (hop : w.toInt % 100 ∈ opcodeNumbers)
    (hmodes : 999 < w.toInt / 100 ∨ 2 < w.toInt / 100 % 10 ∨ 2 < w.toInt / 1000 % 10 ∨
      2 < w.toInt / 10000 % 10) : decode w = .error .invalidParameterMode := by
  rcases hd : decode w with e | i
  · rw [decode_error_of_registered hw hop hd]
  · obtain ⟨_, hshort, _, m1, m2, m3, _, _, h1, h2, h3⟩ := decode_ok hd
    have hnat := toNat_eq_toInt hw
    have hm1 := m1.digit_le
    have hm2 := m2.digit_le
    have hm3 := m3.digit_le
    simp only [digit] at h1 h2 h3
    omega

namespace Machine

/-- A word that does not decode: the step takes the decode fault where it stands, `cycle` reports it, and the
engine then holds a fault, so no further cycle starts (rules R231 to R233, R240). -/
theorem decodeError_isLatched {s : State} {w : Word} {e : DecodeError} (hr : s.runnable)
    (hp : 0 ≤ s.pc.toInt) (hw : s.mem.read s.pc.toNat = w) (hd : decode w = .error e) :
    ∃ t, t = takeFault s.pc (s.raiseDecode w e) ∧ step s = .next t ∧
      Returns .cycle s (.faulted (s.raiseDecode w e).cause w) t ∧ step t = .fault .invalidState := by
  subst hw
  have hstep := step_of_decode_error hr hp hd
  refine ⟨_, rfl, hstep, ⟨0, ?_⟩, step_of_not_runnable fun h => nomatch h.2⟩
  simp only [State.command, State.cycleCommand, hstep, State.report, takeFault_faultValid, if_true,
    takeFault_faultCause, takeFault_faultInfo, State.raiseDecode_info]

/-- Settles O5: neither kind of word decodes, and the fault of a word that does not decode is latched. -/
theorem unregisteredOpcodeIsLatched : Obligations.UnregisteredOpcodeIsLatched := by
  unfold Obligations.UnregisteredOpcodeIsLatched
  intro s w hr hp hw hillegal
  have hd : decode w = .error .invalidOpcode := by
    by_cases hneg : w.toInt < 0
    · exact decode_of_negative hneg
    · exact decode_of_unregistered (Int.not_lt.mp hneg) (hillegal.resolve_left hneg)
  exact decodeError_isLatched hr hp hw hd

/-- Settles O6: such a word does not decode, and the fault of a word that does not decode is latched. -/
theorem illegalModeFieldIsLatched : Obligations.IllegalModeFieldIsLatched := by
  unfold Obligations.IllegalModeFieldIsLatched
  intro s w hr hp hw hpos hop hmodes
  exact decodeError_isLatched hr hp hw (decode_of_illegal_modes hpos hop hmodes)

/-! ### Mode digits that select nothing -/

theorem resolvesAlike_of_same_mode {i j : Instr} {k : Param} (hop : i.opcode = j.opcode)
    (hm : i.mode k = j.mode k) : resolvesAlike i j k :=
  ⟨by simp only [Instr.kind, hop], fun _ _ _ => by rw [hm]⟩

/-- A write target's address is its parameter word in mode 0 and in mode 1 (rule R123). -/
theorem resolvesAlike_of_write_target {i j : Instr} {k : Param} (hop : i.opcode = j.opcode)
    (hk : i.kind k = .write) (hi : i.mode k = .immediate) (hj : j.mode k = .position) :
    resolvesAlike i j k :=
  ⟨by simp only [Instr.kind, hop], fun _ _ _ => by rw [hk, hi, hj]; rfl⟩

/-- Instructions of one opcode whose modes differ in unused digits alone end alike. -/
theorem exec_agree_of_used_modes {i j : Instr} {s : State}
    (hm : ∀ k ∈ Param.first i.paramCount, i.mode k = j.mode k)
    (hop : i.opcode = j.opcode := by rfl) :
    outcomesAgree (exec i s) (exec j s) :=
  exec_agree hop (fun k hk => resolvesAlike_of_same_mode hop (hm k hk)) (.refl s)

/-- Mode 1 and mode 0 on the write target of a `P3W` opcode. -/
theorem exec_agree_of_p3w_target {op : Opcode} (hf : op.format = .p3w) (m1 m2 : Mode) (s : State) :
    outcomesAgree (exec (op.instr m1 m2 .immediate) s) (exec (op.instr m1 m2 .position) s) := by
  have hop : (op.instr m1 m2 .immediate).opcode = (op.instr m1 m2 .position).opcode := by simp
  refine exec_agree hop (fun k _ => ?_) (.refl s)
  cases k with
  | one => exact resolvesAlike_of_same_mode hop (by simp)
  | two => exact resolvesAlike_of_same_mode hop (by simp)
  | three =>
    have hkind : (op.instr m1 m2 .immediate).kind .three = .write := by
      rw [Instr.kind, Opcode.instr_opcode, hf]; rfl
    exact resolvesAlike_of_write_target hop hkind (by simp) (by simp)

/-- Mode 1 and mode 0 on the write target of IN. -/
theorem exec_agree_of_inp_target (m2 m3 : Mode) (s : State) :
    outcomesAgree (exec (.inp .immediate m2 m3) s) (exec (.inp .position m2 m3) s) := by
  have hop : (Instr.inp .immediate m2 m3).opcode = (Instr.inp .position m2 m3).opcode := rfl
  refine exec_agree hop (fun k _ => ?_) (.refl s)
  cases k with
  | one => exact resolvesAlike_of_write_target hop rfl rfl rfl
  | two => exact resolvesAlike_of_same_mode hop rfl
  | three => exact resolvesAlike_of_same_mode hop rfl

/-- Settles O33: ADD, MUL, LT and EQ are the `P3W` opcodes, and IN is the `P1W` opcode. -/
theorem immediateWriteTargetIsPosition : Obligations.ImmediateWriteTargetIsPosition := by
  unfold Obligations.ImmediateWriteTargetIsPosition
  intro s m m'
  exact ⟨exec_agree_of_p3w_target (op := .add) rfl m m' s,
    exec_agree_of_p3w_target (op := .mul) rfl m m' s,
    exec_agree_of_p3w_target (op := .lt) rfl m m' s,
    exec_agree_of_p3w_target (op := .eq) rfl m m' s,
    exec_agree_of_inp_target m m' s⟩

/-- Settles O34: the parameters an opcode has are those of its format, and their digits are the same. -/
theorem unusedModeDigitsAreIgnored : Obligations.UnusedModeDigitsAreIgnored := by
  unfold Obligations.UnusedModeDigitsAreIgnored
  intro s m1 m2 m3 n1 n2 n3
  refine ⟨exec_agree_of_used_modes ?inp, exec_agree_of_used_modes ?out, exec_agree_of_used_modes ?arb,
    exec_agree_of_used_modes ?jt, exec_agree_of_used_modes ?jf, exec_agree_of_used_modes ?hlt⟩
  case inp | out | arb => exact List.forall_mem_singleton.mpr rfl
  case jt | jf => exact List.forall_mem_cons.mpr ⟨rfl, List.forall_mem_singleton.mpr rfl⟩
  case hlt => exact List.forall_mem_nil _

/-! ### HLT -/

/-- Settles O24: HLT has no parameter, so its cycle moves PC past the instruction word and halts. -/
theorem hltHalts : Obligations.HltHalts := by
  unfold Obligations.HltHalts
  intro s m1 m2 m3 hready
  obtain ⟨u, hu, he⟩ := exec_of_ready s (.hlt m1 m2 m3) hready
  have hm := hu.moved
  refine ⟨u.setRunState .halted, he, hu.pc_eq (n := 0) (by omega), rfl, fun a => ?_, hm.rb, hm.inq,
    hm.outq, hm.program, hm.keepsLatch⟩
  rw [State.setRunState_mem, hm.mem]

end Machine

end Sys2Proof

/-!
The statements of spec/40_cycle_and_operands.md: when a cycle starts, what its common steps raise, and where it
writes memory.
-/

namespace Sys2Proof.Machine

/-! ### When a cycle starts -/

/-- Settles O9: neither state is runnable. -/
theorem noCycleStartsUnlessRunnable : Obligations.NoCycleStartsUnlessRunnable := by
  unfold Obligations.NoCycleStartsUnlessRunnable
  rintro s (hstate | hlatched)
  · exact step_of_not_runnable fun hr => hstate hr.1
  · exact step_of_not_runnable fun hr => nomatch hlatched.symm.trans hr.2

/-- Settles O8: the fetch raises `InvalidAddress(PC)` from the very state the cycle began in. -/
theorem negativePcFaultsAtFetch : Obligations.NegativePcFaultsAtFetch := by
  unfold Obligations.NegativePcFaultsAtFetch
  intro s hr hp
  exact step_of_negative_pc hr hp

/-! ### What the common steps raise -/

/-- A raise of the common steps is taken as the fault of the cycle. -/
theorem exec_of_prepare_error {s : State} {i : Instr} {r : Raised} (h : s.prepareInstr i = .error r) :
    exec i s = .next (takeFault s.pc r) := by
  rw [exec_eq, h]; rfl

/-- Where the parameters before `k` resolve, a cycle comes to the resolution of `k` with PC at its parameter
word, and a raise there is the fault of the cycle. -/
theorem State.reach_param (s : State) (i : Instr) (k : Param) (hk : k ∈ Param.first i.paramCount)
    (hroom : s.roomFor k.offset) (hres : ∀ j : Param, j.offset < k.offset → s.resolves i j) :
    ∃ u, s.movedTo u ∧ u.pc.toInt = s.pc.toInt + k.offset ∧
      u.addressHere k (i.kind k) = s.paramAddress (i.kind k) (i.mode k) k ∧
      ∀ r, u.resolveParam k (i.kind k) = .error r → exec i s = .next (takeFault s.pc r) := by
  have hle := i.paramCount_le
  have hoff : k.offset - 1 + 1 = k.offset := Nat.sub_add_cancel k.offset_pos
  have hnth := k.nth_pred_offset
  have hcount := (Param.mem_first hle k).mp hk
  obtain ⟨u, hu, he⟩ := s.reach i (k.offset - 1) (by omega) (by rwa [hoff]) fun j hj =>
    hres j (by have := (Param.mem_first (by omega) j).mp hj; omega)
  have hpc : u.pc.toInt = s.pc.toInt + k.offset := by rw [hu.pc]; omega
  have haddr := hu.addressHere (by omega) (by have := hroom.1; omega)
  rw [hnth] at haddr
  refine ⟨u, hu.moved, hpc, haddr, fun r hr => exec_of_prepare_error ?_⟩
  rw [he, Param.drop_first hle (by omega), hnth, State.resolveList]
  exact congrArg (· >>= _) hr

/-- Settles O25: the cycle comes to parameter `k`, whose address check raises. -/
theorem negativeAddressIsLatched : Obligations.NegativeAddressIsLatched := by
  unfold Obligations.NegativeAddressIsLatched
  intro s i k hk hroom hres hmin hneg
  obtain ⟨u, hmoved, hpc, haddr, hexec⟩ := s.reach_param i k hk hroom hres
  have hfits : fits (s.paramAddress (i.kind k) (i.mode k) k) := ⟨hmin, by simp only [intMax]; omega⟩
  have hraise := u.resolveParam_of_negative k (i.kind k) (by have := hroom.1; omega)
    (haddr ▸ hfits) (haddr ▸ hneg)
  refine ⟨_, hexec _ hraise, State.faultedFrom_takeFault hmoved ?_ hpc⟩
  rw [State.raiseAddress_info, haddr, wordOf_toInt hfits]

/-- What fault entry leaves when PC cannot be incremented in a state that has only moved (rule R132): overflow
kind 5. -/
theorem State.faultedFrom_pcOverflow {s u : State} (hmoved : s.movedTo u) (hpc : u.pc.toInt = intMax) :
    s.faultedFrom (takeFault s.pc (u.raiseOverflow .pc)) .arithmeticOverflow 5 intMax :=
  State.faultedFrom_takeFault hmoved (State.raiseOverflow_info u .pc) hpc

/-- Settles O27: the increment past the instruction word raises, or the one past parameter `n` does after that
parameter has resolved. -/
theorem pcIncrementOverflowIsLatched : Obligations.PcIncrementOverflowIsLatched := by
  unfold Obligations.PcIncrementOverflowIsLatched
  intro s i n hn hp htop hres
  have hle := i.paramCount_le
  cases n with
  | zero =>
    have hpc : s.pc.toInt = intMax := by simpa using htop
    have hraise := State.advancePc_of_top
      (s.latchDecode i.opcode (i.mode .one) (i.mode .two) (i.mode .three))
      (by simp only [State.latchDecode_pc]; omega)
    exact ⟨_, exec_of_prepare_error (by rw [State.prepareInstr_eq, hraise, except_error_bind]),
      State.faultedFrom_pcOverflow (s.movedTo_latchDecode _ _ _ _) hpc⟩
  | succ n =>
    obtain ⟨k, hoff⟩ : ∃ k : Param, k.offset = n + 1 := ⟨_, Param.nth_offset (n := n) (by omega)⟩
    have hbefore : ∀ j : Param, j.offset ≤ k.offset → s.resolves i j := fun j hj =>
      hres j ((Param.mem_first (by omega) j).mpr (hoff ▸ hj))
    have hend : s.pc.toInt + k.offset = intMax := by rw [hoff]; exact htop
    obtain ⟨u, hmoved, hpc, haddr, hexec⟩ := s.reach_param i k
      ((Param.mem_first hle k).mpr (hoff ▸ hn)) ⟨hp, Int.le_of_eq hend⟩
      fun j hj => hbefore j (Nat.le_of_lt hj)
    obtain ⟨hnonneg, hmax⟩ := hbefore k (Nat.le_refl _)
    have hgood := u.resolveParam_of_good k (i.kind k) (by omega) (haddr ▸ hnonneg) (haddr ▸ hmax)
    rw [State.advancePc_of_top _ (by simp only [State.setOa_pc]; omega)] at hgood
    exact ⟨_, hexec _ hgood, State.faultedFrom_pcOverflow (hmoved.trans (u.movedTo_setOa k _))
      (by rw [State.setOa_pc, hpc, hend])⟩

/-! ### Where a cycle writes memory -/

/-- An execute step leaves memory alone, or writes one word, at the address of the instruction's write target. -/
theorem executeStep_mem {s u t : State} {i : Instr} (h : s.Progress i i.paramCount u)
    (he : executeStep i.opcode u = .ok t) :
    t.mem = s.mem ∨ ∃ k ∈ Param.first i.paramCount, i.kind k = .write ∧
      ∃ v, t.mem = s.mem.write (s.paramAddress .write (i.mode k) k).toNat v := by
  have hm := h.moved.mem
  rcases executeStep_ok h he with ⟨hf, v, rfl⟩ | ⟨_, _, _, _, _, rfl⟩ |
    ⟨m1, m2, m3, v, rest, rfl, _, rfl⟩ | ⟨_, _, _, _, rfl⟩ | ⟨_, rfl | ⟨v, rfl⟩⟩ |
    ⟨_, _, _, _, v, rfl⟩ | ⟨_, _, _, _, rfl⟩
  · obtain ⟨hk, hkind⟩ := format_param hf .three (by decide)
    exact .inr ⟨.three, hk, hkind, v, rfl⟩
  · exact .inl hm
  · exact .inr ⟨.one, List.mem_singleton_self _, rfl, v, rfl⟩
  · exact .inl hm
  · exact .inl hm
  · exact .inl hm
  · exact .inl hm
  · exact .inl hm

/-- Settles O31: fault entry leaves memory alone, and an execute step writes at the write target alone. -/
theorem onlyTheWriteTargetChanges : Obligations.OnlyTheWriteTargetChanges := by
  unfold Obligations.OnlyTheWriteTargetChanges
  intro i s t a h hne
  rcases exec_cases h with ⟨r, hr, rfl⟩ | ⟨u, hu, he⟩
  · exact absurd (by rw [takeFault_mem, hr.moved.mem]) hne
  · rcases executeStep_mem hu he with hsame | ⟨k, hk, hkind, v, hwrite⟩
    · exact absurd (by rw [hsame]) hne
    · obtain ⟨_, hnonneg, _⟩ := hu.resolved k hk
      rw [hkind] at hnonneg
      have ha : a = (s.paramAddress .write (i.mode k) k).toNat := by
        by_contra hother
        exact hne (by rw [hwrite, Memory.read_write_of_ne _ _ hother])
      exact ⟨k, hk, hkind, by rw [ha, Int.toNat_of_nonneg hnonneg]⟩

end Sys2Proof.Machine

/-!
The statements of spec/43_jumps.md: JT and JF, taken or not.
-/

namespace Sys2Proof.Machine

/-- The cycle of a ready conditional jump (rules R160, R163): PC becomes the target word when the condition
holds of the first operand and moves past the instruction when it does not, and nothing else but the scratch pad
differs. -/
theorem exec_of_ready_jump {s : State} {i : Instr} {taken : Word → Bool} (hf : i.opcode.format = .p2r)
    (hj : ∀ u, executeStep i.opcode u = u.jumpWhen taken) (hready : s.ready i) :
    ∃ t, exec i s = .next t ∧ s.movedTo t ∧
      (taken (s.operandWord (i.mode .one) .one) = true → t.pc = s.operandWord (i.mode .two) .two) ∧
      (taken (s.operandWord (i.mode .one) .one) = false → t.pc.toInt = s.pc.toInt + 3) := by
  obtain ⟨u, hu, he⟩ := exec_of_ready s i hready
  rw [hj, hu.jumpWhen hf] at he
  have hcount : i.paramCount = 2 := by rw [Instr.paramCount, hf]; rfl
  cases hc : taken (s.operandWord (i.mode .one) .one) with
  | true =>
    rw [hc] at he
    exact ⟨_, he, hu.moved.trans (u.movedTo_setPc _), fun _ => rfl, nofun⟩
  | false =>
    rw [hc] at he
    exact ⟨u, he, hu.moved, nofun, fun _ => hu.pc_eq (by omega)⟩

/-- Settles O20: JT is the jump taken when the condition word is not 0. -/
theorem jtJumpsWhenNotZero : Obligations.JtJumpsWhenNotZero := by
  unfold Obligations.JtJumpsWhenNotZero
  intro s m1 m2 m3 hready
  obtain ⟨t, hexec, hm, hjump, hstay⟩ := exec_of_ready_jump (i := .jt m1 m2 m3) rfl (fun _ => rfl) hready
  exact ⟨t, hexec, fun hc => hjump (decide_eq_true hc),
    fun hc => hstay (decide_eq_false (not_not_intro hc)),
    fun a => by rw [hm.mem], hm.rb, hm.inq, hm.outq, hm.runState, hm.program, hm.keepsLatch⟩

/-- Settles O21: JF is the jump taken when the condition word is 0. -/
theorem jfJumpsWhenZero : Obligations.JfJumpsWhenZero := by
  unfold Obligations.JfJumpsWhenZero
  intro s m1 m2 m3 hready
  obtain ⟨t, hexec, hm, hjump, hstay⟩ := exec_of_ready_jump (i := .jf m1 m2 m3) rfl (fun _ => rfl) hready
  exact ⟨t, hexec, fun hc => hjump (decide_eq_true (not_not_intro hc)),
    fun hc => hstay (decide_eq_false (not_not_intro hc)),
    fun a => by rw [hm.mem], hm.rb, hm.inq, hm.outq, hm.runState, hm.program, hm.keepsLatch⟩

end Sys2Proof.Machine

/-!
The statement of spec/45_relative_base.md about the whole machine: ARB alone changes RB.
-/

namespace Sys2Proof.Machine

/-- An execute step leaves RB alone, or is that of an ARB. -/
theorem executeStep_rb {s u t : State} {i : Instr} (h : s.Progress i i.paramCount u)
    (he : executeStep i.opcode u = .ok t) : t.rb = s.rb ∨ i.opcode = .arb := by
  have kept : u.rb = s.rb := h.moved.rb
  rcases executeStep_ok h he with ⟨_, v, rfl⟩ | ⟨_, _, _, _, _, rfl⟩ | ⟨_, _, _, v, rest, _, _, rfl⟩ |
    ⟨_, _, _, _, rfl⟩ | ⟨_, rfl | ⟨v, rfl⟩⟩ | ⟨m1, m2, m3, rfl, _⟩ | ⟨_, _, _, _, rfl⟩
  · exact .inl kept
  · exact .inl kept
  · exact .inl kept
  · exact .inl kept
  · exact .inl kept
  · exact .inl kept
  · exact .inr rfl
  · exact .inl kept

/-- Settles O29: fault entry leaves RB alone, and so does every execute step but that of ARB. -/
theorem onlyArbChangesRb : Obligations.OnlyArbChangesRb := by
  unfold Obligations.OnlyArbChangesRb
  intro i s t h hne
  rcases exec_cases h with ⟨r, hr, rfl⟩ | ⟨u, hu, he⟩
  · exact absurd hr.moved.rb hne
  · exact (executeStep_rb hu he).resolve_left hne

end Sys2Proof.Machine

/-!
The statements of spec/47_host_commands.md about the commands themselves: what each one returns and leaves, and
when it is rejected.
-/

namespace Sys2Proof.Machine

/-! ### Reset, the queues and looking -/

/-- What a reset leaves depends on PROGRAM alone. -/
theorem State.restart_congr {s t : State} (h : t.program = s.program) : t.restart = s.restart := by
  simp only [State.restart, h]

/-- Settles O39: no step changes PROGRAM, and a reset reads nothing else. -/
theorem resetForgetsTheRun : Obligations.ResetForgetsTheRun := by
  unfold Obligations.ResetForgetsTheRun
  exact ⟨fun s t h => State.restart_congr (step_program h),
    fun s => ⟨State.restart_congr rfl, State.restart_congr s.restart_program⟩⟩

/-- Settles O40: `command` does so whatever the state and the count. -/
theorem pushInputAppends : Obligations.PushInputAppends := fun _ _ _ => rfl

/-- Settles O41: `command` does so whatever the state and the count. -/
theorem drainOutputReturnsAndClears : Obligations.DrainOutputReturnsAndClears := fun _ _ => rfl

theorem State.peek_of_neg (s : State) {a : Word} (h : a.toInt < 0) :
    s.peek a = .rejected .invalidAddress := if_pos h

theorem State.peek_of_nonneg (s : State) {a : Word} (h : 0 ≤ a.toInt) :
    s.peek a = .word (s.mem.read a.toNat) := if_neg (Int.not_lt.mpr h)

theorem State.readFault_of_latched {s : State} (h : s.faultValid = true) :
    s.readFault = .latch (some (s.faultCause, s.faultPc, s.faultInfo)) := by
  rw [State.readFault, if_pos h]

theorem State.readFault_of_not_latched {s : State} (h : s.faultValid = false) :
    s.readFault = .latch none := by
  rw [State.readFault, if_neg (ne_true_of_eq_false h)]

/-- Settles O46: each answer is a field of the state, but for the two that test the address or the latch. -/
theorem introspectionOnlyReads : Obligations.IntrospectionOnlyReads := by
  unfold Obligations.IntrospectionOnlyReads
  intro n s a
  refine ⟨fun h => ?_, fun h => ?_, rfl, rfl, rfl, rfl, rfl, rfl, fun h => ?_, fun h => ?_⟩
  · rw [State.command, s.peek_of_neg h]
  · rw [State.command, s.peek_of_nonneg h]
  · rw [State.command, State.readFault_of_latched h]
  · rw [State.command, State.readFault_of_not_latched h]

/-! ### One cycle -/

/-- The count of cycles a call is watched for does not show in `cycle`. -/
theorem returns_cycle_iff {s t : State} {r : Response} :
    Returns .cycle s r t ↔ s.cycleCommand = some (r, t) :=
  ⟨fun ⟨_, h⟩ => h, fun h => ⟨0, h⟩⟩

theorem eq_report_iff {s : State} {r : Response} :
    r = s.report ↔ (s.faultValid = true ∧ r = .faulted s.faultCause s.faultInfo) ∨
      (s.faultValid = false ∧ r = .stopped s.runState) := by
  unfold State.report
  cases s.faultValid <;> simp

/-- Settles O59: a runnable engine performs its one step and reports, another is rejected. -/
theorem cycleReportsItsStep : Obligations.CycleReportsItsStep := by
  unfold Obligations.CycleReportsItsStep
  intro s r t
  rw [returns_cycle_iff, ← eq_report_iff]
  rcases cycleCommand_cases s with ⟨hs, hc⟩ | ⟨hs, u, hu, hc⟩
  · rw [hc]
    constructor
    · intro h; cases h; exact .inl ⟨hs, rfl, rfl⟩
    · rintro (⟨_, rfl, rfl⟩ | ⟨hs', _⟩)
      · rfl
      · exact absurd hs' hs
  · rw [hc, hu]
    constructor
    · intro h; cases h; exact .inr ⟨hs, rfl, rfl⟩
    · rintro (⟨hs', _⟩ | ⟨_, ht, rfl⟩)
      · exact absurd hs hs'
      · cases ht; rfl

/-! ### Run and resume -/

/-- `run` returns what its first cycle answers, unless that is `Stopped(Running)`. -/
theorem returns_run_of_other {s u : State} {r' : Response} (hc : s.cycleCommand = some (r', u))
    (hr : r' ≠ .stopped .running) {r : Response} {t : State} :
    Returns .run s r t ↔ r = r' ∧ t = u := by
  constructor
  · rintro ⟨n, hn⟩
    cases n with
    | zero => cases hn
    | succ n => cases (runWithin_of_other n hc hr).symm.trans hn; exact ⟨rfl, rfl⟩
  · rintro ⟨rfl, rfl⟩
    exact ⟨1, runWithin_of_other 0 hc hr⟩

/-- After a cycle that answers `Stopped(Running)`, `run` is `run` from the state the cycle left. -/
theorem returns_run_of_running {s u : State} (hc : s.cycleCommand = some (.stopped .running, u))
    {r : Response} {t : State} : Returns .run s r t ↔ Returns .run u r t := by
  constructor
  · rintro ⟨n, hn⟩
    cases n with
    | zero => cases hn
    | succ n => exact ⟨n, (runWithin_of_running n hc).symm.trans hn⟩
  · rintro ⟨n, hn⟩
    exact ⟨n + 1, (runWithin_of_running n hc).trans hn⟩

/-- Settles O42: the first cycle is rejected, or ends in one of the three ways `report_cases` lists, and `run` goes
on after the third alone. -/
theorem runRepeatsCycles : Obligations.RunRepeatsCycles := by
  unfold Obligations.RunRepeatsCycles
  intro s r t
  rcases cycleCommand_cases s with ⟨hs, hc⟩ | ⟨hs, u, hu, hc⟩
  · rw [returns_run_of_other hc nofun]
    exact ⟨fun h => .inl ⟨hs, h⟩, fun h => (h.resolve_right fun h => hs h.1).2⟩
  · have only : ∀ P : State → Prop, (∃ w, step s = .next w ∧ P w) ↔ P u := fun P => by
      simp [hu]
    rw [only, or_iff_right fun h => h.1 hs, and_iff_right hs]
    rcases report_cases u with ⟨hv, hr⟩ | ⟨hv, hstop, hr⟩ | ⟨hrun, hr⟩
    · rw [returns_run_of_other hc (hr ▸ nofun), hr]
      simp [hv]
    · rw [returns_run_of_other hc (by simp [hr, hstop]), hr]
      simp [hv, hstop]
    · rw [returns_run_of_running (hr ▸ hc)]
      simp [hrun.1, hrun.2, and_iff_right hrun]

/-- Settles O43: the precondition does not depend on the count of cycles the call is watched for. -/
theorem resumeRunsAWaitingEngine : Obligations.ResumeRunsAWaitingEngine := by
  unfold Obligations.ResumeRunsAWaitingEngine
  intro s r t
  split
  case isTrue hw => simp only [Returns, State.command, State.resumeWithin, if_pos hw]; rfl
  case isFalse hw => exact returns_iff_of_forall (c := .resume) (fun _ => if_neg hw) r t

/-- Settles O50: watched for as long as both calls together, the command gives both answers. -/
theorem commandsReturnAtMostOnce : Obligations.CommandsReturnAtMostOnce := by
  unfold Obligations.CommandsReturnAtMostOnce
  rintro c s r r' t t' ⟨n, hn⟩ ⟨k, hk⟩
  have hboth := command_mono k hn
  rw [Nat.add_comm, command_mono n hk] at hboth
  cases hboth
  exact ⟨rfl, rfl⟩

/-! ### Rejection -/

theorem State.report_ne_rejected (s : State) (e : Rejection) : s.report ≠ .rejected e := by
  rcases report_cases s with ⟨_, h⟩ | ⟨_, _, h⟩ | ⟨_, h⟩ <;> rw [h] <;> nofun

/-- Only an engine that can run on reports `Stopped(Running)`. -/
theorem State.runnable_of_report {s : State} (h : s.report = .stopped .running) : s.runnable := by
  rcases eq_report_iff.mp h.symm with ⟨_, hr⟩ | ⟨hv, hr⟩
  · cases hr
  · exact ⟨(Response.stopped.inj hr).symm, hv⟩

/-- `run` is rejected at once, or returns the report of the state it leaves: the engine it goes on from can
run. -/
theorem runWithin_response {n : Nat} : ∀ {s t : State} {r : Response},
    State.runWithin n s = some (r, t) →
    (¬ s.runnable ∧ r = .rejected .invalidState ∧ t = s) ∨ (s.runnable ∧ r = t.report) := by
  induction n with
  | zero => intro s t r h; cases h
  | succ n ih =>
    intro s t r h
    rcases cycleCommand_cases s with ⟨hs, hc⟩ | ⟨hs, u, _, hc⟩
    · cases (runWithin_of_other n hc nofun).symm.trans h
      exact .inl ⟨hs, rfl, rfl⟩
    · by_cases hr : u.report = .stopped .running
      · rw [runWithin_of_running n (hr ▸ hc)] at h
        exact .inr ⟨hs, ((ih h).resolve_left fun h => h.1 (State.runnable_of_report hr)).2⟩
      · cases (runWithin_of_other n hc hr).symm.trans h
        exact .inr ⟨hs, rfl⟩

/-- A rejected `run` was issued to an engine that cannot run. -/
theorem returns_run_rejected {s t : State} {e : Rejection} (h : Returns .run s (.rejected e) t) :
    e = .invalidState ∧ ¬ s.runnable ∧ t = s := by
  obtain ⟨n, hn⟩ := h
  rcases runWithin_response hn with ⟨hs, he, ht⟩ | ⟨_, hr⟩
  · exact ⟨Response.rejected.inj he, hs, ht⟩
  · exact absurd hr.symm (t.report_ne_rejected e)

/-- A rejected `cycle` was issued to an engine that cannot run. -/
theorem returns_cycle_rejected {s t : State} {e : Rejection} (h : Returns .cycle s (.rejected e) t) :
    e = .invalidState ∧ ¬ s.runnable ∧ t = s := by
  rcases cycleCommand_cases s with ⟨hs, hc⟩ | ⟨_, u, _, hc⟩
  · cases hc.symm.trans (returns_cycle_iff.mp h)
    exact ⟨rfl, hs, rfl⟩
  · have hr := hc.symm.trans (returns_cycle_iff.mp h)
    exact absurd (congrArg Prod.fst (Option.some.inj hr)) (u.report_ne_rejected e)

/-- A rejected `resume` was issued to an engine that is not waiting or holds a fault: the `run` of a waiting
engine set running is not rejected. -/
theorem returns_resume_rejected {s t : State} {e : Rejection} (h : Returns .resume s (.rejected e) t) :
    e = .invalidState ∧ ¬ (s.runState = .waitingForInput ∧ s.faultValid = false) ∧ t = s := by
  have hres := (resumeRunsAWaitingEngine s _ t).mp h
  split at hres
  case isTrue hw => exact absurd ⟨rfl, hw.2⟩ (returns_run_rejected hres).2.1
  case isFalse hw => exact ⟨Response.rejected.inj hres.1, hw, hres.2⟩

/-- The reject cells of the matrix of rule R214. -/
def State.rejects (s : State) (c : Command) : Prop :=
  ((c = .cycle ∨ c = .run) ∧ ¬ s.runnable) ∨
    (c = .resume ∧ ¬ (s.runState = .waitingForInput ∧ s.faultValid = false))

/-- A rejection is that of a `peek`, or one of the matrix; it leaves the state it was issued in. -/
theorem returns_rejected {c : Command} {s t : State} {e : Rejection}
    (h : Returns c s (.rejected e) t) :
    t = s ∧ (e = .invalidAddress ∨ (e = .invalidState ∧ s.rejects c)) := by
  cases c with
  | run =>
    obtain ⟨he, hs, ht⟩ := returns_run_rejected h
    exact ⟨ht, .inr ⟨he, .inl ⟨.inr rfl, hs⟩⟩⟩
  | cycle =>
    obtain ⟨he, hs, ht⟩ := returns_cycle_rejected h
    exact ⟨ht, .inr ⟨he, .inl ⟨.inl rfl, hs⟩⟩⟩
  | resume =>
    obtain ⟨he, hw, ht⟩ := returns_resume_rejected h
    exact ⟨ht, .inr ⟨he, .inr ⟨rfl, hw⟩⟩⟩
  | peek a =>
    obtain ⟨n, hn⟩ := h
    rw [State.command] at hn
    by_cases ha : a.toInt < 0
    · rw [s.peek_of_neg ha] at hn; cases hn; exact ⟨rfl, .inl rfl⟩
    · rw [s.peek_of_nonneg (Int.not_lt.mp ha)] at hn; cases hn
  | _ => obtain ⟨n, hn⟩ := h; cases hn

/-- Settles O44: every rejection is in the matrix, and each of its cells is the first clause of what the command
does. -/
theorem commandsAreRejectedByTheMatrix : Obligations.CommandsAreRejectedByTheMatrix := by
  unfold Obligations.CommandsAreRejectedByTheMatrix
  intro c s
  constructor
  · rintro ⟨t, h⟩
    exact ((returns_rejected h).2.resolve_left nofun).2
  · rintro (⟨rfl | rfl, hs⟩ | ⟨rfl, hw⟩)
    · exact ⟨s, (cycleReportsItsStep s _ s).mpr (.inl ⟨hs, rfl, rfl⟩)⟩
    · exact ⟨s, (runRepeatsCycles s _ s).mpr (.inl ⟨hs, rfl, rfl⟩)⟩
    · exact ⟨s, (resumeRunsAWaitingEngine s _ s).mpr (by rw [if_neg hw]; exact ⟨rfl, rfl⟩)⟩

/-- Settles O45: `returns_rejected` covers every command. -/
theorem rejectionChangesNothing : Obligations.RejectionChangesNothing :=
  fun _ _ _ _ h => (returns_rejected h).1

/-! ### Late input -/

/-- A cycle whose parameters have all resolved was ready. -/
theorem State.Progress.ready {s u : State} {i : Instr} (h : s.Progress i i.paramCount u)
    (hp : 0 ≤ s.pc.toInt) : s.ready i := by
  have hpc := h.pc
  have hmax := toInt_le_intMax u.pc
  exact ⟨⟨hp, by push_cast; omega⟩, fun k hk => (h.resolved k hk).2⟩

/-- The state in which an IN takes its input (rules R113, R114): of the scratch pad, `OA[2]` and `OA[3]` alone
are as before. -/
def State.atInput (s : State) (m1 m2 m3 : Mode) : State :=
  ((s.latchDecode .inp m1 m2 m3).setOa .one (wordOf (s.paramAddress .write m1 .one))).setPc
    (wordOf (s.pc.toInt + 2))

/-- The common steps of an IN that succeed come to `atInput`. -/
theorem State.prepareInstr_inp_ok {s u : State} {m1 m2 m3 : Mode}
    (hu : s.prepareInstr (.inp m1 m2 m3) = .ok u) : u = s.atInput m1 m2 m3 := by
  rw [State.prepareInstr_eq] at hu
  obtain ⟨w, hw, hu⟩ := bind_eq_ok hu
  obtain ⟨v, hv, hu⟩ := bind_eq_ok hu
  cases hu
  have hstart := State.Progress.start hw
  obtain ⟨hwpc, _, _, _, rfl⟩ := State.resolveParam_ok hv
  have haddr : w.addressHere .one .write = s.paramAddress .write m1 .one :=
    hstart.addressHere (by decide) hwpc
  have hpc : w.pc.toInt + 1 = s.pc.toInt + 2 := by rw [hstart.pc]; omega
  obtain ⟨_, hweq⟩ := State.advancePc_ok hw
  change (w.setOa .one (wordOf (w.addressHere .one .write))).setPc (wordOf (w.pc.toInt + 1)) = _
  rw [haddr, hpc, hweq]
  rfl

/-- A ready IN takes its input in `atInput`. -/
theorem exec_inp_of_ready {s : State} {m1 m2 m3 : Mode} (h : s.ready (.inp m1 m2 m3)) :
    exec (.inp m1 m2 m3) s = endCycle s.pc (takeInput (s.atInput m1 m2 m3)) := by
  obtain ⟨u, hu, _⟩ := s.prepare_ready _ h
  rw [exec_eq, hu, except_ok_bind, State.prepareInstr_inp_ok hu]
  rfl

/-- A step at a ready IN. -/
theorem step_of_ready_inp {s : State} {m1 m2 m3 : Mode} (hr : s.runnable) (hp : 0 ≤ s.pc.toInt)
    (hd : decode (s.mem.read s.pc.toNat) = .ok (.inp m1 m2 m3)) (hready : s.ready (.inp m1 m2 m3)) :
    step s = endCycle s.pc (takeInput (s.atInput m1 m2 m3)) :=
  (step_of_decode_ok hr hp hd).trans (exec_inp_of_ready hready)

/-- A step that leaves the engine waiting ran a ready IN, and changed RUN_STATE and the scratch pad
alone (rule R151). -/
theorem step_waiting {s t : State} (h : step s = .next t) (hw : t.runState = .waitingForInput) :
    ∃ m1 m2 m3, s.runnable ∧ 0 ≤ s.pc.toInt ∧
      decode (s.mem.read s.pc.toNat) = .ok (.inp m1 m2 m3) ∧ s.ready (.inp m1 m2 m3) ∧
      t = { s with runState := .waitingForInput, scratch := (s.atInput m1 m2 m3).scratch } := by
  obtain ⟨hrun, ⟨r, hr, rfl⟩ | ⟨i, u, hp, hd, hexec, hu, he⟩⟩ := step_cases h
  · rw [takeFault_runState, hr.moved.runState, hrun.1] at hw; cases hw
  · rcases executeStep_runState hu he with hk | ⟨_, hq, ⟨m1, m2, m3, rfl⟩, hpc, _⟩ | ⟨hh, _⟩
    · rw [hk, hrun.1] at hw; cases hw
    · have hready := hu.ready hp
      refine ⟨m1, m2, m3, hrun, hp, hd, hready, ?_⟩
      rw [exec_inp_of_ready hready, takeInput, show (s.atInput m1 m2 m3).inq = [] from hq] at hexec
      cases hexec
      have hback : (s.atInput m1 m2 m3).pc - 2 = s.pc := hpc
      rw [hback]
      rfl
    · rw [hh] at hw; cases hw

/-- An IN that is tried again comes to take its input in the state in which the first try would have, whatever the
input queue holds by then: of the scratch pad the first try left, nothing shows. -/
theorem State.atInput_again {s : State} (hr : s.runState = .running) {q : List Word} {m1 m2 m3 : Mode} :
    State.atInput { s with
      inq := q, runState := .running, scratch := (s.atInput m1 m2 m3).scratch } m1 m2 m3 =
      State.atInput { s with inq := q } m1 m2 m3 := by
  rw [← hr]; rfl

/-- Settles O51: the blocked IN left all it reads as it was, so both steps run it, and come to take the
input in one state. -/
theorem lateInputIsAsGoodAsEarlyInput : Obligations.LateInputIsAsGoodAsEarlyInput := by
  unfold Obligations.LateInputIsAsGoodAsEarlyInput
  intro s t v h hw
  obtain ⟨m1, m2, m3, hrun, hp, hd, hready, rfl⟩ := step_waiting h hw
  have late := step_of_ready_inp (s := { s with
    inq := s.inq ++ [v], runState := .running, scratch := (s.atInput m1 m2 m3).scratch })
    ⟨rfl, hrun.2⟩ hp hd hready
  have early := step_of_ready_inp (s := { s with inq := s.inq ++ [v] }) hrun hp hd hready
  rw [State.atInput_again hrun.1] at late
  exact late.trans early.symm

end Sys2Proof.Machine

/-!
The statements of spec/60_exceptions.md about a cycle that repeats for ever (rule R252) and about commands on two
instances (rule R248).
-/

namespace Sys2Proof.Machine

/-! ### A cycle that repeats for ever -/

theorem State.agrees.runnable {s t : State} (h : s.agrees t) (hs : s.runnable) : t.runnable :=
  ⟨h.runState.trans hs.1, h.faultValid.trans hs.2⟩

/-- The next cycle of a cycle that changed nothing that can be seen is one again. -/
theorem step_again_of_agrees {s t : State} (h : step s = .next t) (ha : s.agrees t) :
    ∃ u, step t = .next u ∧ t.agrees u := by
  have hsame : outcomesAgree (step s) (step t) := unspecifiedRegistersAreNeverRead s t ha
  rw [h] at hsame
  rcases hstep : step t with u | _ | _ <;> rw [hstep] at hsame
  · exact ⟨u, rfl, hsame⟩
  · exact hsame.elim
  · exact hsame.elim

theorem State.report_of_runnable {s : State} (h : s.runnable) : s.report = .stopped .running :=
  (eq_report_iff.mpr (.inr ⟨h.2, by rw [h.1]⟩)).symm

/-- A cycle that leaves the engine able to run answers `Stopped(Running)`. -/
theorem cycleCommand_of_runnable_next {s t : State} (h : step s = .next t) (ht : t.runnable) :
    s.cycleCommand = some (.stopped .running, t) := by
  rw [State.cycleCommand, h, ← State.report_of_runnable ht]

/-- Settles O52, by induction on the count of cycles `run` is watched for: the first cycle answers
`Stopped(Running)`, and the cycle after it again changes nothing that can be seen. -/
theorem unchangingCycleHangs : Obligations.UnchangingCycleHangs := by
  unfold Obligations.UnchangingCycleHangs
  intro s t h ha n
  change State.runWithin n s = none
  induction n generalizing s t with
  | zero => rfl
  | succ n ih =>
    have ht : t.runnable := ha.runnable (step_cases h).1
    obtain ⟨u, hu, hau⟩ := step_again_of_agrees h ha
    rw [runWithin_of_running n (cycleCommand_of_runnable_next h ht)]
    exact ih t u hu hau

/-! ### Commands on two instances -/

theorem Instances.command_of_get {b : Instances} {n k : Nat} {c : Command} {r : Response} {s t : State}
    (hs : b[k]? = some s) (ht : s.command n c = some (r, t)) :
    b.command n k c = some (r, b.set k t) := by
  simp only [Instances.command, hs, ht]

/-- Settles O54: each command finds its instance untouched by the other one, and the two replacements in the
list commute. -/
theorem commandsOnTwoInstancesCommute : Obligations.CommandsOnTwoInstancesCommute := by
  unfold Obligations.CommandsOnTwoInstancesCommute
  intro b b1 b2 n n' j k c d r r' hjk hc hd
  obtain ⟨s, s', hs, hs', rfl⟩ := Instances.command_eq_some hc
  obtain ⟨t, t', ht, ht', rfl⟩ := Instances.command_eq_some hd
  rw [List.getElem?_set_ne hjk] at ht
  refine ⟨b.set k t', Instances.command_of_get ht ht', ?_⟩
  rw [List.set_comm s' t' hjk]
  exact Instances.command_of_get ((List.getElem?_set_ne hjk.symm).trans hs) hs'

end Sys2Proof.Machine

/-!
The statements of spec/30_encoding.md about the decoder and the encoder together, and the four checks on a word.
-/

namespace Sys2Proof

/-- Settles O2: the decoder reads back every digit the encoder writes, and a word that decodes has no other
digit. -/
theorem decodeAndEncodeAreInverse : Obligations.DecodeAndEncodeAreInverse := by
  unfold Obligations.DecodeAndEncodeAreInverse
  intro w i
  constructor
  · exact encode_of_decode
  · rintro rfl
    exact decode_encode i

theorem decode_of_encode_eq {w : Word} {i : Instr} (h : encode i = w) : decode w = .ok i :=
  (decodeAndEncodeAreInverse w i).mpr h

/-! ### The four checks -/

/-- The four checks as facts about the word's value. -/
theorem legalWord_iff (w : Word) : WellFormed.legalWord w = true ↔
    0 ≤ w.toInt ∧ w.toInt % 100 ∈ opcodeNumbers ∧ w.toInt / 100 ≤ 999 ∧ w.toInt / 100 % 10 ≤ 2 ∧
      w.toInt / 1000 % 10 ≤ 2 ∧ w.toInt / 10000 % 10 ≤ 2 := by
  simp only [WellFormed.legalWord, WellFormed.nonNegative, WellFormed.registeredOpcode,
    WellFormed.shortModeField, WellFormed.legalModeDigits, Bool.and_eq_true, decide_eq_true_eq, and_assoc,
    opcodeNumbers]

theorem Mode.exists_digit_eq {v : Int} (h0 : 0 ≤ v) (h2 : v ≤ 2) : ∃ m : Mode, (m.digit : Int) = v := by
  obtain rfl | rfl | rfl : v = 0 ∨ v = 1 ∨ v = 2 := by omega
  · exact ⟨.position, rfl⟩
  · exact ⟨.immediate, rfl⟩
  · exact ⟨.relative, rfl⟩

/-- The word of every instruction passes the four checks. -/
theorem legalWord_encode (i : Instr) : WellFormed.legalWord (encode i) = true := by
  obtain ⟨op, m1, m2, m3, rfl⟩ := i.exists_eq_instr
  obtain ⟨hop, hshort, h1, h2, h3⟩ := instrNumber_digits op m1 m2 m3
  have hm1 := m1.digit_le
  have hm2 := m2.digit_le
  have hm3 := m3.digit_le
  simp only [digit] at h1 h2 h3
  rw [legalWord_iff, encode_instr_toInt]
  refine ⟨by omega, (mem_opcodeNumbers _).mpr ⟨op, by omega⟩, ?_⟩
  omega

/-- A word that passes the four checks is the word of the instruction its digits name. -/
theorem exists_encode_of_legalWord {w : Word} (h : WellFormed.legalWord w = true) :
    ∃ i, encode i = w := by
  obtain ⟨hpos, hop, hshort, h1, h2, h3⟩ := (legalWord_iff w).mp h
  obtain ⟨op, hop⟩ := (mem_opcodeNumbers _).mp hop
  obtain ⟨m1, h1⟩ := Mode.exists_digit_eq (by omega) h1
  obtain ⟨m2, h2⟩ := Mode.exists_digit_eq (by omega) h2
  obtain ⟨m3, h3⟩ := Mode.exists_digit_eq (by omega) h3
  refine ⟨op.instr m1 m2 m3, toInt_injective ?_⟩
  rw [encode_instr_toInt, instrNumber]
  omega

/-- Settles O4: both are the words of the instructions. -/
theorem wellFormedWordsAreTheDecodableOnes : Obligations.WellFormedWordsAreTheDecodableOnes := by
  unfold Obligations.WellFormedWordsAreTheDecodableOnes
  intro w
  constructor
  · intro h
    obtain ⟨i, hi⟩ := exists_encode_of_legalWord h
    exact ⟨i, decode_of_encode_eq hi⟩
  · rintro ⟨i, hi⟩
    rw [← encode_of_decode hi]
    exact legalWord_encode i

/-! ### Words written out -/

/-- Settles O1: twelve are the words of the instructions named, three have no registered opcode or are negative,
and two have an illegal mode field. -/
theorem sampleWordsDecode : Obligations.SampleWordsDecode := by
  unfold Obligations.SampleWordsDecode
  refine ⟨decode_of_encode_eq rfl, decode_of_encode_eq rfl, decode_of_encode_eq rfl,
    decode_of_encode_eq rfl, decode_of_encode_eq rfl, decode_of_encode_eq rfl, decode_of_encode_eq rfl,
    decode_of_encode_eq rfl, decode_of_encode_eq rfl, decode_of_encode_eq rfl, decode_of_encode_eq rfl,
    decode_of_encode_eq rfl, decode_of_unregistered ?_ ?_, decode_of_unregistered ?_ ?_,
    decode_of_negative ?_, decode_of_illegal_modes ?_ ?_ (.inr (.inl ?_)),
    decode_of_illegal_modes ?_ ?_ (.inl ?_)⟩
  all_goals decide

end Sys2Proof

/-!
The statements about the invariant (spec/10_state.md rule R37) at reset and under the host's commands.
-/

namespace Sys2Proof.Machine

/-- Every reset leaves the invariant, whatever it finds. -/
theorem State.restart_inv (s : State) : s.restart.Inv where
  memory := Memory.wf_seed s.program
  latch h := nomatch h
  waiting h := nomatch h
  addresses k := by rw [s.restart_scratch]; cases k <;> decide

/-- The invariant does not speak of the queues. -/
theorem State.Inv.setInq {s : State} (h : s.Inv) (q : List Word) : (s.setInq q).Inv :=
  ⟨h.memory, h.latch, h.waiting, h.addresses⟩

theorem State.Inv.setOutq {s : State} (h : s.Inv) (q : List Word) : (s.setOutq q).Inv :=
  ⟨h.memory, h.latch, h.waiting, h.addresses⟩

/-- An engine set running again, as `resume` does (rule R207). -/
theorem State.Inv.setRunning {s : State} (h : s.Inv) : (s.setRunState .running).Inv where
  memory := h.memory
  latch hv := ⟨rfl, (h.latch hv).2⟩
  waiting hw := nomatch hw
  addresses := h.addresses

theorem Cycles.keep_inv {s t : State} (h : Cycles s t) (hs : s.Inv) : t.Inv :=
  h.keep stepKeepsTheInvariant hs

/-- Settles O55: both are a state after `restart`. -/
theorem newInstanceSatisfiesTheInvariant : Obligations.NewInstanceSatisfiesTheInvariant :=
  ⟨State.restart_inv State.reset, fun _ => State.restart_inv _⟩

/-- Settles O57: a command resets, changes a queue, or performs cycles, which keep the invariant however many
they are. -/
theorem commandsKeepTheInvariant : Obligations.CommandsKeepTheInvariant := by
  unfold Obligations.CommandsKeepTheInvariant
  intro c s r t hs h
  rcases returns_cases h with ⟨_, rfl⟩ | ⟨program, _, rfl⟩ | ⟨q, rfl⟩ | ⟨q, rfl⟩ | hcyc |
    ⟨_, _, hcyc⟩
  · exact s.restart_inv
  · exact State.restart_inv _
  · exact hs.setInq q
  · exact hs.setOutq q
  · exact hcyc.keep_inv hs
  · exact hcyc.keep_inv hs.setRunning

end Sys2Proof.Machine

/-!
The statements of spec/41_arithmetic.md and spec/44_compare.md: ADD, MUL, LT and EQ.
-/

namespace Sys2Proof.Machine

/-! ### The cycle of a ready binary instruction -/

/-- The write at a resolved address, by addresses as numbers (rule R55). -/
theorem Memory.read_write_toNat (m : Memory) {addr : Int} (h : 0 ≤ addr) (v : Word) :
    (∀ a : Nat, (a : Int) = addr → (m.write addr.toNat v).read a = v) ∧
      ∀ a : Nat, (a : Int) ≠ addr → (m.write addr.toNat v).read a = m.read a := by
  constructor
  · rintro a rfl
    exact Memory.read_write_self m a v
  · intro a ha
    exact Memory.read_write_of_ne m v (by omega)

/-- The cycle of a ready binary instruction computes from its two operands and stores at its write target. -/
theorem exec_of_ready_binary {s : State} {i : Instr} {f : State → Word → Word → Except Raised Word}
    (hf : i.opcode.format = .p3w) (hb : ∀ u, executeStep i.opcode u = u.binary f) (hready : s.ready i) :
    ∃ u, s.movedTo u ∧ u.pc.toInt = s.pc.toInt + 4 ∧ exec i s = endCycle s.pc
      (f u (s.operandWord (i.mode .one) .one) (s.operandWord (i.mode .two) .two) >>= fun v =>
        .ok (u.setMem (s.mem.write (s.paramAddress .write (i.mode .three) .three).toNat v))) := by
  obtain ⟨u, hu, he⟩ := exec_of_ready s i hready
  have hcount : i.paramCount = 3 := by rw [Instr.paramCount, hf]; rfl
  refine ⟨u, hu.moved, hu.pc_eq (by omega), ?_⟩
  rw [he, hb, hu.binary hf]

/-- The cycle of `i` stores the word of value `value` at its write target, parameter 3, and moves PC by 4; all
else but the scratch pad is as before. -/
def State.storesResult (s : State) (i : Instr) (value : Int) : Prop :=
  ∃ t, exec i s = .next t ∧ t.pc.toInt = s.pc.toInt + 4 ∧
    (∀ a : Nat, (a : Int) = s.paramAddress .write (i.mode .three) .three → (t.mem.read a).toInt = value) ∧
    (∀ a : Nat, (a : Int) ≠ s.paramAddress .write (i.mode .three) .three → t.mem.read a = s.mem.read a) ∧
    t.rb = s.rb ∧ t.inq = s.inq ∧ t.outq = s.outq ∧ t.runState = s.runState ∧ t.program = s.program ∧
    s.keepsLatch t

/-- A binary instruction whose computation succeeds stores its result. -/
theorem storesResult_of_ready {s : State} {i : Instr} {f : State → Word → Word → Except Raised Word}
    {v : Word} (hf : i.opcode.format = .p3w) (hb : ∀ u, executeStep i.opcode u = u.binary f)
    (hready : s.ready i)
    (hv : ∀ u, f u (s.operandWord (i.mode .one) .one) (s.operandWord (i.mode .two) .two) = .ok v) :
    s.storesResult i v.toInt := by
  obtain ⟨u, hm, hpc, he⟩ := exec_of_ready_binary hf hb hready
  rw [hv, except_ok_bind] at he
  obtain ⟨hmem, hkind⟩ := format_param hf .three (by decide)
  obtain ⟨hnonneg, _⟩ := hready.2 .three hmem
  rw [hkind] at hnonneg
  obtain ⟨hsame, hother⟩ := s.mem.read_write_toNat hnonneg v
  exact ⟨_, he, hpc, fun a ha => congrArg BitVec.toInt (hsame a ha), hother, hm.rb, hm.inq, hm.outq,
    hm.runState, hm.program, hm.keepsLatch⟩

/-- An arithmetic instruction whose exact result fits stores it. -/
theorem storesResult_of_fits {s : State} {i : Instr} {k : OverflowKind} {g : Word → Word → Int}
    (hf : i.opcode.format = .p3w)
    (hb : ∀ u, executeStep i.opcode u = u.binary fun u x y => u.fitOrRaise k (g x y))
    (hready : s.ready i)
    (hfits : fits (g (s.operandWord (i.mode .one) .one) (s.operandWord (i.mode .two) .two))) :
    s.storesResult i (g (s.operandWord (i.mode .one) .one) (s.operandWord (i.mode .two) .two)) := by
  have h := storesResult_of_ready hf hb hready fun u => u.fitOrRaise_of_fits k hfits
  rwa [wordOf_toInt hfits] at h

/-- An overflow raised in a state that has only moved, taken as the fault of the cycle (rule R235). -/
theorem State.faultedFrom_overflow {s u : State} (hm : s.movedTo u) (k : OverflowKind) :
    s.faultedFrom (takeFault s.pc (u.raiseOverflow k)) .arithmeticOverflow k.code u.pc.toInt :=
  State.faultedFrom_takeFault hm (u.raiseOverflow_info k) rfl

/-- An arithmetic instruction whose exact result does not fit raises the overflow of its kind after all
increments of PC. -/
theorem exec_of_ready_overflow {s : State} {i : Instr} {k : OverflowKind} {g : Word → Word → Int}
    (hf : i.opcode.format = .p3w)
    (hb : ∀ u, executeStep i.opcode u = u.binary fun u x y => u.fitOrRaise k (g x y))
    (hready : s.ready i)
    (hfits : ¬ fits (g (s.operandWord (i.mode .one) .one) (s.operandWord (i.mode .two) .two))) :
    ∃ t, exec i s = .next t ∧ s.faultedFrom t .arithmeticOverflow k.code (s.pc.toInt + 4) := by
  obtain ⟨u, hm, hpc, he⟩ := exec_of_ready_binary hf hb hready
  rw [u.fitOrRaise_of_not_fits k hfits, except_error_bind] at he
  exact ⟨_, he, hpc ▸ State.faultedFrom_overflow hm k⟩

/-! ### ADD and MUL -/

/-- Settles O11: ADD is the binary instruction of the exact sum. -/
theorem addStoresTheExactSum : Obligations.AddStoresTheExactSum := by
  unfold Obligations.AddStoresTheExactSum
  intro s m1 m2 m3 hready hfits
  exact storesResult_of_fits (g := exactSum) rfl (fun _ => rfl) hready hfits

/-- Settles O12: ADD raises overflow kind 1. -/
theorem addOverflowIsLatched : Obligations.AddOverflowIsLatched := by
  unfold Obligations.AddOverflowIsLatched
  intro s m1 m2 m3 hready hfits
  exact exec_of_ready_overflow (k := .add) (g := exactSum) rfl (fun _ => rfl) hready hfits

/-- Settles O13: MUL is the binary instruction of the exact product. -/
theorem mulStoresTheExactProduct : Obligations.MulStoresTheExactProduct := by
  unfold Obligations.MulStoresTheExactProduct
  intro s m1 m2 m3 hready hfits
  exact storesResult_of_fits (g := exactProduct) rfl (fun _ => rfl) hready hfits

/-- Settles O14: MUL raises overflow kind 2. -/
theorem mulOverflowIsLatched : Obligations.MulOverflowIsLatched := by
  unfold Obligations.MulOverflowIsLatched
  intro s m1 m2 m3 hready hfits
  exact exec_of_ready_overflow (k := .mul) (g := exactProduct) rfl (fun _ => rfl) hready hfits

/-! ### LT and EQ -/

/-- Settles O15: LT is the binary instruction of `lessThanWord`, which never raises. -/
theorem ltStoresTheSignedComparison : Obligations.LtStoresTheSignedComparison := by
  unfold Obligations.LtStoresTheSignedComparison
  intro s m1 m2 m3 hready
  rw [← lessThanWord_toInt]
  exact storesResult_of_ready (i := .lt m1 m2 m3) rfl (fun _ => rfl) hready fun _ => rfl

/-- Settles O16: EQ is the binary instruction of `equalWord`, which never raises. -/
theorem eqStoresTheEquality : Obligations.EqStoresTheEquality := by
  unfold Obligations.EqStoresTheEquality
  intro s m1 m2 m3 hready
  rw [← equalWord_toInt]
  exact storesResult_of_ready (i := .eq m1 m2 m3) rfl (fun _ => rfl) hready fun _ => rfl

end Sys2Proof.Machine

/-!
The statements of spec/42_input_output.md: IN and OUT.
-/

namespace Sys2Proof.Machine

/-- Settles O17: with input, the execute step of IN stores the oldest entry at the one resolved address. -/
theorem inStoresTheOldestInput : Obligations.InStoresTheOldestInput := by
  unfold Obligations.InStoresTheOldestInput
  intro s m1 m2 m3 v rest hready hq
  obtain ⟨u, hu, he⟩ := exec_of_ready s (.inp m1 m2 m3) hready
  have hm := hu.moved
  have htake : executeStep .inp u = .ok ((u.setInq rest).setMem
      (s.mem.write (s.paramAddress .write m1 .one).toNat v)) := by
    rw [executeStep, hu.takeInput, hq]
  obtain ⟨hnonneg, _⟩ := hready.2 .one (List.mem_singleton_self _)
  obtain ⟨hsame, hother⟩ := s.mem.read_write_toNat hnonneg v
  exact ⟨_, he.trans (congrArg _ htake), hu.pc_eq (n := 1) (by omega), rfl, hsame, hother, hm.rb,
    hm.outq, hm.runState, hm.program, hm.keepsLatch⟩

/-- Settles O18: without input, the execute step of IN takes back the two increments of PC and parks the
engine. -/
theorem inWaitsOnAnEmptyQueue : Obligations.InWaitsOnAnEmptyQueue := by
  unfold Obligations.InWaitsOnAnEmptyQueue
  intro s m1 m2 m3 hready hq
  obtain ⟨u, hu, he⟩ := exec_of_ready s (.inp m1 m2 m3) hready
  have hm := hu.moved
  have htake : executeStep .inp u = .ok ((u.setPc (u.pc - 2)).setRunState .waitingForInput) := by
    rw [executeStep, hu.takeInput, hq]
  exact ⟨_, he.trans (congrArg _ htake), hu.pc_sub_two, rfl, fun a => congrArg (·.read a) hm.mem, hm.rb,
    hm.inq.trans hq, hm.outq, hm.program, hm.keepsLatch⟩

/-- Settles O19: the execute step of OUT appends the operand. -/
theorem outAppendsTheOperand : Obligations.OutAppendsTheOperand := by
  unfold Obligations.OutAppendsTheOperand
  intro s m1 m2 m3 hready
  obtain ⟨u, hu, he⟩ := exec_of_ready s (.out m1 m2 m3) hready
  have hm := hu.moved
  exact ⟨_, he.trans (congrArg _ hu.giveOutput), hu.pc_eq (n := 1) (by omega), rfl,
    fun a => congrArg (·.read a) hm.mem, hm.rb, hm.inq, hm.runState, hm.program, hm.keepsLatch⟩

end Sys2Proof.Machine

/-!
The statements of spec/45_relative_base.md: ARB.
-/

namespace Sys2Proof.Machine

/-- The cycle of a ready ARB adds its operand, resolved with the old RB, to RB. -/
theorem exec_of_ready_arb {s : State} {m1 m2 m3 : Mode} (hready : s.ready (.arb m1 m2 m3)) :
    ∃ u, s.movedTo u ∧ u.pc.toInt = s.pc.toInt + 2 ∧ exec (.arb m1 m2 m3) s = endCycle s.pc
      (u.fitOrRaise .arb (exactSum s.rb (s.operandWord m1 .one)) >>= fun v => .ok (u.setRb v)) := by
  obtain ⟨u, hu, he⟩ := exec_of_ready s (.arb m1 m2 m3) hready
  exact ⟨u, hu.moved, hu.pc_eq (n := 1) (by omega), he.trans (congrArg _ hu.adjustBase)⟩

/-- Settles O22: the sum fits, so RB takes it. -/
theorem arbAddsTheOperandToRb : Obligations.ArbAddsTheOperandToRb := by
  unfold Obligations.ArbAddsTheOperandToRb
  intro s m1 m2 m3 hready hfits
  obtain ⟨u, hm, hpc, he⟩ := exec_of_ready_arb hready
  rw [u.fitOrRaise_of_fits .arb hfits, except_ok_bind] at he
  exact ⟨_, he, hpc, wordOf_toInt hfits, fun a => congrArg (·.read a) hm.mem, hm.inq, hm.outq,
    hm.runState, hm.program, hm.keepsLatch⟩

/-- Settles O23: the sum does not fit, so ARB raises overflow kind 3 before it writes RB. -/
theorem arbOverflowIsLatched : Obligations.ArbOverflowIsLatched := by
  unfold Obligations.ArbOverflowIsLatched
  intro s m1 m2 m3 hready hfits
  obtain ⟨u, hm, hpc, he⟩ := exec_of_ready_arb hready
  rw [u.fitOrRaise_of_not_fits .arb hfits, except_error_bind] at he
  exact ⟨_, he, hpc ▸ State.faultedFrom_overflow hm .arb⟩

end Sys2Proof.Machine

/-!
The statements of spec/60_exceptions.md about faults, and those of spec/40_cycle_and_operands.md about the start of
a cycle.
-/

namespace Sys2Proof.Machine

/-! ### Faults -/

/-- A relative address is the exact sum of the parameter word and RB, for a read and a write alike (rules R122,
R124). -/
theorem State.paramAddress_relative (s : State) (kind : ParamKind) (k : Param) :
    s.paramAddress kind .relative k = (s.paramWord k).toInt + s.rb.toInt := rfl

/-- Settles O26: the cycle comes to parameter `k`, whose address does not fit. -/
theorem relativeAddressOverflowIsLatched : Obligations.RelativeAddressOverflowIsLatched := by
  unfold Obligations.RelativeAddressOverflowIsLatched
  intro s i k hk hroom hres hmode hfits
  obtain ⟨u, hm, hpc, haddr, hexec⟩ := s.reach_param i k hk hroom hres
  rw [hmode, s.paramAddress_relative] at haddr
  have hraise := u.resolveParam_of_overflow k (i.kind k) (by have := hroom.1; omega) (haddr ▸ hfits)
  exact ⟨_, hexec _ hraise, hpc ▸ State.faultedFrom_overflow hm .address⟩

/-- Settles O28: a cycle that began without a fault and ended with one took a fault, since an execute step
leaves the latch alone. -/
theorem faultsArePrecise : Obligations.FaultsArePrecise := by
  unfold Obligations.FaultsArePrecise
  intro s t h hvalid
  have hstuck : step t = .fault .invalidState :=
    step_of_not_runnable fun hr => nomatch hvalid.symm.trans hr.2
  obtain ⟨⟨_, hclear⟩, ⟨r, hr, rfl⟩ | ⟨i, u, _, _, _, hu, he⟩⟩ := step_cases h
  · have hm := hr.moved
    exact ⟨fun a => congrArg (·.read a) hm.mem, hm.rb, hm.inq, hm.outq, hm.runState, hm.program, rfl,
      hstuck⟩
  · obtain ⟨_, ⟨hlatch, _⟩, _⟩ := executeStep_frame hu he
    exact nomatch hvalid.symm.trans (hlatch.trans hclear)

/-! ### The start of a cycle -/

/-- Settles O7: the fetch reads that word, and decode answers that instruction. -/
theorem stepRunsTheDecodedInstruction : Obligations.StepRunsTheDecodedInstruction := by
  unfold Obligations.StepRunsTheDecodedInstruction
  intro s i hr hp hd
  exact step_of_decode_ok hr hp hd

/-- Settles O10: a runnable engine's cycle is not the rejected one of `cycleCommand_cases`. -/
theorem everyStartedCycleAnswersNext : Obligations.EveryStartedCycleAnswersNext := by
  unfold Obligations.EveryStartedCycleAnswersNext
  intro s hr
  rcases cycleCommand_cases s with ⟨hstuck, _⟩ | ⟨_, t, ht, _⟩
  · exact absurd hr hstuck
  · exact ⟨t, ht⟩

/-! ### Placing a word -/

/-- A table number decodes as its lowest word does. -/
theorem decode_tableWord_zero {nbits w : Nat} {i : Instr} (h : decodeTableWord nbits w = some i) :
    decode (tableWord w 0) = .ok i := by
  change (match decode (tableWord w 0) with | .ok i => some i | .error _ => none) = some i at h
  split at h
  · rename_i hd; cases h; exact hd
  · cases h

theorem State.withFetchWord_runnable (s : State) (nbits w : Nat) : (s.withFetchWord nbits w).runnable :=
  ⟨rfl, rfl⟩

/-- A negative PC is moved to address 0. -/
theorem State.withFetchWord_pc_nonneg (s : State) (nbits w : Nat) :
    0 ≤ (s.withFetchWord nbits w).pc.toInt := by
  change 0 ≤ (if s.pc.toInt < 0 then (0 : Word) else s.pc).toInt
  split
  · decide
  · omega

/-- The lowest word is placed where the next cycle fetches. -/
theorem State.withFetchWord_read (s : State) (nbits w : Nat) :
    (s.withFetchWord nbits w).mem.read (s.withFetchWord nbits w).pc.toNat = tableWord w 0 :=
  Memory.read_writeWords_first s.mem _ _ _ (toNat_lt_addressLimit (s.withFetchWord_pc_nonneg nbits w))

/-- Settles O58: the placed state is runnable, and its fetch reads the placed word. -/
theorem placedWordIsTheNextInstruction : Obligations.PlacedWordIsTheNextInstruction := by
  unfold Obligations.PlacedWordIsTheNextInstruction
  intro s nbits w i h
  have hd : decode ((s.withFetchWord nbits w).mem.read (s.withFetchWord nbits w).pc.toNat) = .ok i := by
    rw [s.withFetchWord_read, decode_tableWord_zero h]
  exact step_of_decode_ok (s.withFetchWord_runnable nbits w) (s.withFetchWord_pc_nonneg nbits w) hd

end Sys2Proof.Machine
